-- ==== Sys2Proof/Word.lean ====
section
/-! DEFINITION. The word types of CORE: a byte (a register, a memory cell, an operand), the program counter and a register index (spec/00_scope.md R4, R5). -/

namespace Sys2Proof

/-- A register, a memory cell, an opcode or an operand: an unsigned 8-bit value (R5, `XLEN`, `CELL_BITS`). -/
abbrev Byte := BitVec 8

/-- The program counter: 9 bits, of which the values 0..256 occur (R15, `PC_BITS`, decision D4; log 7). -/
abbrev PcWord := BitVec 9

/-- A checked register index, 0..7 (R11, `NREGS`). -/
abbrev RegIndex := Fin 8

end Sys2Proof
end

