-- ==== Sys2Proof/Config.lean ====
section
/-! DEFINITION. The parameters of CORE (spec/00_scope.md R4): the fixed ones, the ones with a default, and the open ones. -/

namespace Sys2Proof.Config

/-- `MEM_SIZE`: 256 cells, so the valid addresses are 0..255 (R4, R30, conflict C1). -/
abbrev memSize : Nat := 256

/-- `SP_INDEX`: register 7 is the stack pointer (R4, R13). -/
abbrev spIndex : RegIndex := 7

/-- `SP_RESET` (R4, R22). -/
abbrev spReset : Byte := 255

/-- `PC_RESET` (R4, R22; the spec's decision D3). -/
abbrev pcReset : PcWord := 0

/-- `INIT_REGS`, the reset values of registers 0 to 6. The spec leaves them OPEN (R4, R22, decision D5) and
recommends 0 for a runner. DESIGN CHOICE: all 0; unsafe, log 2. -/
def initRegs : Vector Byte 7 := #v[0, 0, 0, 0, 0, 0, 0]

/-- What a memory cell that is not listed reads as: the fill of `IMAGE` outside what was loaded. The spec leaves
it OPEN (R4, R22, decision D6) and recommends 0 for a runner. DESIGN CHOICE: 0; unsafe, log 3. -/
abbrev unlistedByte : Byte := 0

/-- `SP_BOUNDARY`: what a stack-pointer step across 0 or 255 does (R4, decisions D9, D10). -/
inductive SpBoundary where
  /-- The instruction raises `AddressError(stack_pointer, v)` before any effect. The default. -/
  | fault
  /-- No stack-pointer fault on either side; SP steps modulo 256. -/
  | wrap
deriving DecidableEq, Repr

/-- The value of `SP_BOUNDARY` the machine runs with: the spec's default (R4, D10). DESIGN CHOICE, log 5. -/
def spBoundary : SpBoundary := .fault

/-- One less than `EXIT_STATUS_EXEC_FAULT`, which is OPEN and non-zero (R121, decision D15). A free value: nothing
constrains it; log 8. -/
opaque execFaultStatusPred : Nat

/-- `EXIT_STATUS_EXEC_FAULT`: any non-zero status (R121, decision D15); log 8. -/
def exitStatusExecFault : Nat := execFaultStatusPred + 1

end Sys2Proof.Config
end

