-- ==== Sys2Proof/Machine/State.lean ====
section
/-! DEFINITION. The state of CORE as plain data: the tuple (x, pc, M, run, out) of spec/10_state.md R10, the fault causes, the outcomes' reason types, and the state after reset (R22). -/

namespace Sys2Proof.Machine

/-- Where an AddressError arose (R112). -/
inductive AddressKind where
  /-- Opcode fetch with pc above 255 (R71). -/
  | fetch
  /-- Operand fetch above address 255 (R73). -/
  | operand
  /-- CALL whose return address does not fit a byte (R95, decision D8). -/
  | returnAddress
  /-- PUSH, CALL, POP or RET at the stack-pointer boundary (R90, R91, R95, R96). -/
  | stackPointer
deriving DecidableEq, Repr

/-- The four fatal conditions with their info (R110 to R114). -/
inductive Cause where
  /-- UnknownOpcodeError: the opcode byte (R111). -/
  | unknownOpcode (opcode : Byte)
  /-- AddressError: where it arose and the out-of-range integer (R112). -/
  | addressError (kind : AddressKind) (value : Int)
  /-- RegisterIndexError: the offending operand byte (R113). -/
  | registerIndexError (index : Byte)
  /-- UnsupportedOperationError: kept in the taxonomy, raised by no program (R105, R114; log 12). -/
  | unsupportedOperation
deriving DecidableEq, Repr

/-- The run state, CORE's only control register (R18). -/
inductive RunState where
  | running
  | halted
  | faulted (cause : Cause)
deriving DecidableEq, Repr

/-- The memory `M`: address and byte pairs in one canonical form (`Memory.wf`). A cell that is not listed reads as
`Config.unlistedByte` (log 3). -/
abbrev Memory := List Host.Cell

/-- The canonical form of a memory: addresses strictly rising, all of them below 256, and no entry equal to what
an unlisted cell reads as. -/
abbrev Memory.wf (m : Memory) : Prop :=
  m.Pairwise (fun c d => c.1 < d.1) ∧ ∀ c ∈ m, c.1 < Config.memSize ∧ c.2 ≠ Config.unlistedByte

/-- The whole architectural state (R10). -/
structure State where
  /-- `x[0]`..`x[7]`; `x[7]` is the stack pointer (R11, R13). -/
  regs : Vector Byte 8
  /-- Address of the next instruction byte to fetch (R15). -/
  pc : PcWord
  /-- `M[0]`..`M[255]` (R19). -/
  mem : Memory
  /-- The dispatcher's state (R18). -/
  run : RunState
  /-- Every value PRN has handed to the output sink, oldest first (R20). -/
  out : List Byte
deriving DecidableEq, Repr

/-- Why a step does not exist. Both are states that the spec says have no step (R7, R77), so both are safe: the
hardware does nothing there either. -/
inductive Fault where
  /-- Raised by `step` in a Halted state: HALT is terminal (R77). Safe. -/
  | halted
  /-- Raised by `step` in a Faulted state, with the cause that was recorded: the run ended in a fault (R7, R77,
  R117). Safe. -/
  | faulted (cause : Cause)
deriving DecidableEq, Repr

/-- CORE has no refusal of its own (R7). -/
inductive Refusal where
  /-- Raised by an arm of `exec` whose instruction has no meaning yet; no arm of this model does. Safe. -/
  | notModelled (mnemonic : String)
deriving DecidableEq, Repr

/-- The state when the first step is taken, for any INIT_REGS and any IMAGE (R22, R130). -/
def State.resetWith (initRegs : Vector Byte 7) (image : Memory) : State where
  regs := initRegs.push Config.spReset
  pc := Config.pcReset
  mem := image
  run := .running
  out := []

/-- The machine right after reset, before anything is loaded: `resetWith` at the model's INIT_REGS (log 2) and
with nothing listed in memory (log 3). -/
def State.reset : State := State.resetWith Config.initRegs []

end Sys2Proof.Machine
end

