-- ==== Sys2Proof/Machine/Flags.lean ====
section
/-! DEFINITION. The ALU. CORE has no flags, condition codes or predicates (spec/10_state.md R17): the ALU's only output is the 8-bit result (spec/45_alu.md R100), so this file holds that result and there is no flag computation to write. -/

namespace Sys2Proof.Machine

/-- The ALU operations (R100). The type is closed, so an operation outside it cannot be asked for (R105, U4). -/
inductive AluOp where
  | add | sub | mul
deriving DecidableEq, Repr

/-- The exact integer result of an operation on two unsigned bytes, before it is reduced (R100). -/
def aluExact (o : AluOp) (a b : Byte) : Int :=
  match o with
  | .add => (a.toNat : Int) + b.toNat
  | .sub => (a.toNat : Int) - b.toNat
  | .mul => (a.toNat : Int) * b.toNat

/-- `alu(o, a, b)`: the exact result modulo 256; carry, borrow and high byte are lost (R100, R104). -/
def alu (o : AluOp) (a b : Byte) : Byte := BitVec.ofInt 8 (aluExact o a b)

end Sys2Proof.Machine
end

