-- ==== Sys2Proof/Syntax.lean ====
section
/-! DEFINITION. The instructions of CORE-8 as syntax: one constructor per row of spec/opcode_table.json (spec/30_encoding.md R51, R53). An operand is the whole operand byte (R56): a register operand above 7 can be written, and its instruction raises RegisterIndexError. -/

namespace Sys2Proof

/-- An instruction with its operand bytes, `op1` at pc+1 and `op2` at pc+2 (R51, R57). -/
inductive Instr where
  /-- HALT: stop the machine (R80). -/
  | halt
  /-- LDI op1, op2: load the immediate byte `op2` into register `op1` (R85). -/
  | ldi (op1 op2 : Byte)
  /-- PUSH op1: push register `op1` (R90). -/
  | push (op1 : Byte)
  /-- POP op1: pop into register `op1` (R91). -/
  | pop (op1 : Byte)
  /-- CALL op1: push pc+2 and jump to the address in register `op1` (R95). -/
  | call (op1 : Byte)
  /-- RET: pop the program counter (R96). -/
  | ret
  /-- PRN op1: hand register `op1` to the output sink (R81). -/
  | prn (op1 : Byte)
  /-- ADD op1, op2 (R101). -/
  | add (op1 op2 : Byte)
  /-- SUB op1, op2 (R102). -/
  | sub (op1 op2 : Byte)
  /-- MLT op1, op2, alias MUL (R103). -/
  | mlt (op1 op2 : Byte)
deriving DecidableEq, Repr

/-- The rows of the opcode map (R53), without operands: what the decoder learns from the opcode byte. -/
inductive Opcode where
  | halt | ldi | push | pop | call | ret | prn | add | sub | mlt
deriving DecidableEq, Repr

/-- The four formats (R51). -/
inductive Format where
  /-- No operand, 1 byte. -/
  | z
  /-- One register, 2 bytes. -/
  | r
  /-- Register and immediate, 3 bytes. -/
  | ri
  /-- Register and register, 3 bytes. -/
  | rr
deriving DecidableEq, Repr

end Sys2Proof
end

