-- ==== Sys2Proof/Decode.lean ====
section
/-! DEFINITION. The opcode map, the decoder (total on any bytes, rejecting by name) and the encoder, from the same table (spec/30_encoding.md R50 to R59), and the reading of a word numbered as spec/opcode_table.json numbers it. -/

namespace Sys2Proof

/-- `SUB_OPCODE`: the source gives SUB no pattern; 0xA1 is the spec's choice (R54, decision D2). DESIGN CHOICE of
the spec, log 4. -/
def subOpcode : Byte := 0xA1

/-- The opcode byte of each row (R53). -/
def Opcode.byte : Opcode → Byte
  | .halt => 0x01
  | .ldi => 0x82
  | .push => 0x45
  | .pop => 0x46
  | .call => 0x50
  | .ret => 0x11
  | .prn => 0x47
  | .add => 0xA0
  | .sub => subOpcode
  | .mlt => 0xA2

/-- The format of each row (R53). -/
def Opcode.format : Opcode → Format
  | .halt => .z
  | .ldi => .ri
  | .push => .r
  | .pop => .r
  | .call => .r
  | .ret => .z
  | .prn => .r
  | .add => .rr
  | .sub => .rr
  | .mlt => .rr

/-- How many operand bytes a format has (R51). -/
def Format.operandCount : Format → Nat
  | .z => 0
  | .r => 1
  | .ri => 2
  | .rr => 2

/-- How many operand bytes follow the opcode byte (R53). It is a property of the row, never of bits 7:6 (R55). -/
def Opcode.operandCount (o : Opcode) : Nat := o.format.operandCount

/-- The rows of the opcode map, complete (R53). -/
def Opcode.all : List Opcode :=
  [.halt, .ldi, .push, .pop, .call, .ret, .prn, .add, .sub, .mlt]

/-- Decoding the opcode byte: all 8 bits are compared with each row; a byte that matches none is unknown
(R52, R58). -/
def Opcode.ofByte (b : Byte) : Option Opcode :=
  Opcode.all.find? (fun o => o.byte == b)

/-- The instruction of a row with its operand bytes; a row takes as many of the two as it has (R51, R57). -/
def Opcode.assemble : Opcode → Byte → Byte → Instr
  | .halt, _, _ => .halt
  | .ldi, op1, op2 => .ldi op1 op2
  | .push, op1, _ => .push op1
  | .pop, op1, _ => .pop op1
  | .call, op1, _ => .call op1
  | .ret, _, _ => .ret
  | .prn, op1, _ => .prn op1
  | .add, op1, op2 => .add op1 op2
  | .sub, op1, op2 => .sub op1 op2
  | .mlt, op1, op2 => .mlt op1 op2

/-- Why bytes do not begin with an instruction. -/
inductive DecodeError where
  /-- There is no opcode byte. -/
  | noOpcode
  /-- The opcode byte is in no row of the table (R58). -/
  | unknownOpcode (b : Byte)
  /-- The bytes end before operand `number` (1 or 2). -/
  | missingOperand (number : Nat)
deriving DecidableEq, Repr

/-- The operand bytes of a row, taken from the bytes after its opcode (R51, R57). -/
def decodeOperands (o : Opcode) (bytes : List Byte) : Except DecodeError (Instr × List Byte) :=
  match o.operandCount, bytes with
  | 0, rest => .ok (o.assemble 0 0, rest)
  | 1, op1 :: rest => .ok (o.assemble op1 0, rest)
  | 1, [] => .error (.missingOperand 1)
  | _, op1 :: op2 :: rest => .ok (o.assemble op1 op2, rest)
  | _, [_] => .error (.missingOperand 2)
  | _, [] => .error (.missingOperand 1)

/-- The decoder: the instruction the bytes begin with, and the bytes after it. The opcode byte alone selects the
row and the length (R50, R52, R59); an unknown opcode is reported before any operand is looked at (R58, R72). -/
def decode : List Byte → Except DecodeError (Instr × List Byte)
  | [] => .error .noOpcode
  | b :: rest =>
    match Opcode.ofByte b with
    | none => .error (.unknownOpcode b)
    | some o => decodeOperands o rest

/-- The row of an instruction (R53). -/
def Instr.opcode : Instr → Opcode
  | .halt => .halt
  | .ldi _ _ => .ldi
  | .push _ => .push
  | .pop _ => .pop
  | .call _ => .call
  | .ret => .ret
  | .prn _ => .prn
  | .add _ _ => .add
  | .sub _ _ => .sub
  | .mlt _ _ => .mlt

/-- The operand bytes of an instruction in address order (R51). -/
def Instr.operandBytes : Instr → List Byte
  | .halt => []
  | .ldi op1 op2 => [op1, op2]
  | .push op1 => [op1]
  | .pop op1 => [op1]
  | .call op1 => [op1]
  | .ret => []
  | .prn op1 => [op1]
  | .add op1 op2 => [op1, op2]
  | .sub op1 op2 => [op1, op2]
  | .mlt op1 op2 => [op1, op2]

/-- The encoder: the opcode byte at the lowest address, then the operand bytes (R50, R51). -/
def encode (i : Instr) : List Byte := i.opcode.byte :: i.operandBytes

/-- The length of an instruction in bytes: `1 + operand_count` of its row (R59). -/
def Instr.length (i : Instr) : Nat := 1 + i.opcode.operandCount

/-- The bytes, in address order, of an instruction whose bits are `w`, numbered as spec/opcode_table.json numbers
them: byte 0 is the most significant byte of the row's `nbits` bits (R51, the table's `fixed` entries; DEDUCED,
log 10). Zero bytes follow, up to the longest instruction, 3 bytes. -/
def tableBytes (nbits w : Nat) : List Byte :=
  let n := (nbits + 7) / 8
  (List.range n).map (fun k => BitVec.ofNat 8 (w / 2 ^ (8 * (n - 1 - k)))) ++ List.replicate (3 - n) 0

/-- What the decoder reads from a word of spec/opcode_table.json. -/
def decodeTableWord (nbits w : Nat) : Option Instr :=
  match decode (tableBytes nbits w) with
  | .ok (i, _) => some i
  | .error _ => none

end Sys2Proof
end

