-- ==== Sys2Proof/Machine/Ops.lean ====
section
/-! DEFINITION. The named operations over memory, registers, the program counter, the stack pointer and the output, and the one shared operation that takes a fault (spec/00_scope.md R6; spec/20_memory.md R31, R32; spec/60_exceptions.md R116). There is no return from a fault (R117), so no operation for one. -/

namespace Sys2Proof.Machine

open Sys2Proof.Config (SpBoundary memSize spIndex unlistedByte)

/-- What a step or a meaning answers. -/
abbrev Outcome := Host.Outcome State Fault Refusal

/-- `M[a]`, the content of cell `a` (R6). -/
def Memory.readByte : Memory → Nat → Byte
  | [], _ => unlistedByte
  | (b, v) :: m, a => if b = a then v else Memory.readByte m a

/-- The entry `(a, v)` put before the first entry with a greater address. -/
def Memory.insertCell (a : Nat) (v : Byte) : Memory → Memory
  | [] => [(a, v)]
  | (b, w) :: m => if a < b then (a, v) :: (b, w) :: m else (b, w) :: Memory.insertCell a v m

/-- `M[a] <- v` (R6): the old entry of `a` goes, and `(a, v)` is listed unless `v` is what an unlisted cell reads
as. It keeps the canonical form. -/
def Memory.writeByte (m : Memory) (a : Nat) (v : Byte) : Memory :=
  let rest := m.filter (fun c => c.1 != a)
  if v = unlistedByte then rest else Memory.insertCell a v rest

/-- `MemRead(a, 1)`: the byte of cell `a`, or `AddressError(kind, a)` outside 0..255 (R31). -/
def memRead (kind : AddressKind) (a : Nat) (m : Memory) : Except Cause Byte :=
  if a < memSize then .ok (m.readByte a) else .error (.addressError kind a)

/-- `MemWrite(a, 1, v)`: `v` stored in cell `a`, or `AddressError(kind, a)` outside 0..255 (R32). -/
def memWrite (kind : AddressKind) (a : Nat) (v : Byte) (m : Memory) : Except Cause Memory :=
  if a < memSize then .ok (m.writeByte a v) else .error (.addressError kind a)

/-- `x[i]` (R6, R11). -/
def State.readReg (s : State) (i : RegIndex) : Byte := s.regs[i]

/-- `x[i] <- v`: the value is reduced modulo 256 on every write (R6, R12). -/
def State.writeReg (s : State) (i : RegIndex) (v : Int) : State :=
  { s with regs := s.regs.set i (BitVec.ofInt 8 v) }

/-- The stack pointer, `x[7]` (R13). -/
def State.sp (s : State) : Byte := s.readReg spIndex

/-- The generic advance: `pc <- pc + 1 + operand_count` (R76). -/
def State.advance (s : State) (operandCount : Nat) : State :=
  { s with pc := BitVec.ofNat 9 (s.pc.toNat + 1 + operandCount) }

/-- `pc <- t` for a byte `t` (R6, R16): what CALL and RET do. -/
def State.jump (s : State) (t : Byte) : State := { s with pc := t.setWidth 9 }

/-- `out <- out ++ [v]`: one `emit(v)` event on OUT (R20, R23). -/
def State.emit (s : State) (v : Byte) : State := { s with out := s.out ++ [v] }

/-- Fault entry: `run <- Faulted(cause, info)` and nothing else changes (R116, decision D11; log 6). -/
def takeFault (c : Cause) (s : State) : Outcome := .next { s with run := .faulted c }

/-- The end of an instruction that starts in `s`: the state its effect leaves, or, where a check raised a cause,
fault entry from `s` itself (R70, R116; log 1). -/
def settle (s : State) : Except Cause State → Outcome
  | .ok t => .next t
  | .error c => takeFault c s

/-- The boundary test of PUSH and CALL, on the stack pointer they start with (R90, R95, decision D10). -/
def pushBoundary (b : SpBoundary) (sp : Byte) : Except Cause Unit :=
  match b with
  | .fault => if sp = 0 then .error (.addressError .stackPointer (-1)) else .ok ()
  | .wrap => .ok ()

/-- The boundary test of POP and RET, on the stack pointer they start with (R91, R96, decision D9). -/
def popBoundary (b : SpBoundary) (sp : Byte) : Except Cause Unit :=
  match b with
  | .fault => if sp = 255 then .error (.addressError .stackPointer 256) else .ok ()
  | .wrap => .ok ()

/-- `x[7] <- x[7] - 1` (R90, R95). -/
def State.decSp (s : State) : State := s.writeReg spIndex ((s.sp.toNat : Int) - 1)

/-- `x[7] <- (x[7] + 1) mod 256` (R91, R96). -/
def State.incSp (s : State) : State := s.writeReg spIndex ((s.sp.toNat : Int) + 1)

/-- The cell a stack access addresses: `x[7]` of the state it is made in (R33). A stack write is made after the
decrement, a stack read before the increment. -/
def State.stackAddress (s : State) : Nat := s.sp.toNat

/-- `MemWrite(x[7], 1, v)` (R90, R95). -/
def State.stackStore (s : State) (v : Byte) : Except Cause State := do
  let m ← memWrite .stackPointer s.stackAddress v s.mem
  .ok { s with mem := m }

/-- `MemRead(x[7], 1)` (R91, R96). -/
def State.stackLoad (s : State) : Except Cause Byte := memRead .stackPointer s.stackAddress s.mem

end Sys2Proof.Machine
end

