-- ==== Sys2Proof/Machine/Operands.lean ====
section
/-! DEFINITION. The operand forms: the register-index check, and the fetch of an instruction's bytes from memory (spec/40_step_cycle.md R71 to R74; spec/30_encoding.md R56, R57). -/

namespace Sys2Proof.Machine

open Sys2Proof.Config (memSize)

/-- `reg(k)`: `k` as a register index, or `RegisterIndexError(k)`; the byte is not masked (R14, R74). -/
def reg (k : Byte) : Except Cause RegIndex :=
  if h : k.toNat < 8 then .ok ⟨k.toNat, h⟩ else .error (.registerIndexError k)

/-- Operand fetch for a row already decoded: `op1` from pc+1, then `op2` from pc+2, as integers without wrap; a
row with no operand reads nothing (R73). -/
def fetchOperands (o : Opcode) (pc : Nat) (m : Memory) : Except Cause Instr :=
  match o.operandCount with
  | 0 => .ok (o.assemble 0 0)
  | 1 => do
    let op1 ← memRead .operand (pc + 1) m
    .ok (o.assemble op1 0)
  | _ => do
    let op1 ← memRead .operand (pc + 1) m
    let op2 ← memRead .operand (pc + 2) m
    .ok (o.assemble op1 op2)

/-- Fetch, decode and operand fetch, in that order (R70 to R73). -/
def fetchInstr (s : State) : Except Cause Instr := do
  let opcode ← memRead .fetch s.pc.toNat s.mem
  match Opcode.ofByte opcode with
  | none => .error (.unknownOpcode opcode)
  | some o => fetchOperands o s.pc.toNat s.mem

/-- The bytes of memory at `a`, `a+1` and `a+2`, as far as those cells exist: what the decoder of byte lists is
given to say what `fetchInstr` reads (R50, R57). -/
def bytesFrom (m : Memory) (a : Nat) : List Byte :=
  ((List.range 3).filter (fun k => a + k < memSize)).map (fun k => m.readByte (a + k))

end Sys2Proof.Machine
end

