-- ==== Sys2Proof/Machine/Arithmetic.lean ====
section
/-! DEFINITION. The meanings of ADD, SUB and MLT (spec/45_alu.md R101, R102, R103). -/

namespace Sys2Proof.Machine

/-- The shared effect: both index checks, left first; both sources read before the write; the generic advance
past two operands (R74, R76, R101 to R103, R106). -/
def arithEffect (o : AluOp) (op1 op2 : Byte) (s : State) : Except Cause State := do
  let d ← reg op1
  let r ← reg op2
  .ok ((s.writeReg d (alu o (s.readReg d) (s.readReg r)).toNat).advance 2)

/-- ADD (R101). -/
def execAdd (op1 op2 : Byte) (s : State) : Outcome := settle s (arithEffect .add op1 op2 s)

/-- SUB (R102). -/
def execSub (op1 op2 : Byte) (s : State) : Outcome := settle s (arithEffect .sub op1 op2 s)

/-- MLT, alias MUL; the ALU operation is MUL (R103, conflict C5). -/
def execMlt (op1 op2 : Byte) (s : State) : Outcome := settle s (arithEffect .mul op1 op2 s)

end Sys2Proof.Machine
end

