-- ==== Sys2Proof/Machine/Control.lean ====
section
/-! DEFINITION. The meanings of CALL and RET (spec/44_call_ret.md R95, R96), for both values of SP_BOUNDARY. -/

namespace Sys2Proof.Machine

open Sys2Proof.Config (SpBoundary)

/-- The address of the instruction after a two-byte CALL, as an integer: `zext_9(pc) + 2`, without wrap (R95). -/
def State.returnAddress (s : State) : Nat := s.pc.toNat + 2

/-- CALL's check that the return address is a byte (R95, decision D8). -/
def checkReturnAddress (ret : Nat) : Except Cause Unit :=
  if ret > 255 then .error (.addressError .returnAddress ret) else .ok ()

/-- The effect of CALL: index, return address and boundary are checked in that order, and the target is read after
the decrement, so `CALL R7` jumps to the decremented stack pointer (R78, R95, decision D13; log 9). -/
def callEffect (b : SpBoundary) (op1 : Byte) (s : State) : Except Cause State := do
  let r ← reg op1
  checkReturnAddress s.returnAddress
  pushBoundary b s.sp
  let s₁ := s.decSp
  let s₂ ← s₁.stackStore (BitVec.ofNat 8 s.returnAddress)
  .ok (s₂.jump (s₂.readReg r))

/-- The effect of RET (R96). -/
def retEffect (b : SpBoundary) (s : State) : Except Cause State := do
  popBoundary b s.sp
  let t ← s.stackLoad
  .ok (s.jump t).incSp

/-- CALL (R95). -/
def execCall (op1 : Byte) (s : State) : Outcome := settle s (callEffect Config.spBoundary op1 s)

/-- RET (R96). -/
def execRet (s : State) : Outcome := settle s (retEffect Config.spBoundary s)

end Sys2Proof.Machine
end

