-- ==== Sys2Proof/Machine/LoadImmediate.lean ====
section
/-! DEFINITION. The meaning of LDI (spec/42_load_immediate.md R85). -/

namespace Sys2Proof.Machine

/-- The effect of LDI: only `op1` is a register index; `op2` is written as it stands (R56, R85). -/
def ldiEffect (op1 op2 : Byte) (s : State) : Except Cause State := do
  let d ← reg op1
  .ok ((s.writeReg d op2.toNat).advance 2)

/-- LDI (R85). -/
def execLdi (op1 op2 : Byte) (s : State) : Outcome := settle s (ldiEffect op1 op2 s)

end Sys2Proof.Machine
end

