-- ==== Sys2Proof/Machine/Stack.lean ====
section
/-! DEFINITION. The meanings of PUSH and POP (spec/43_stack_push_pop.md R90, R91), for both values of SP_BOUNDARY. -/

namespace Sys2Proof.Machine

open Sys2Proof.Config (SpBoundary)

/-- The effect of PUSH: the boundary is tested on the old SP, and `x[s]` is read after the decrement, so `PUSH R7`
stores the decremented stack pointer (R90, decision D13; log 9). -/
def pushEffect (b : SpBoundary) (op1 : Byte) (s : State) : Except Cause State := do
  let r ← reg op1
  pushBoundary b s.sp
  let s₁ := s.decSp
  let s₂ ← s₁.stackStore (s₁.readReg r)
  .ok (s₂.advance 1)

/-- The effect of POP: `x[7]` is read for the increment after the write to `x[d]`, so `POP R7` ends with the
loaded value plus one (R91, decision D13; log 9). -/
def popEffect (b : SpBoundary) (op1 : Byte) (s : State) : Except Cause State := do
  let d ← reg op1
  popBoundary b s.sp
  let v ← s.stackLoad
  .ok ((s.writeReg d v.toNat).incSp.advance 1)

/-- PUSH (R90). -/
def execPush (op1 : Byte) (s : State) : Outcome := settle s (pushEffect Config.spBoundary op1 s)

/-- POP (R91). -/
def execPop (op1 : Byte) (s : State) : Outcome := settle s (popEffect Config.spBoundary op1 s)

end Sys2Proof.Machine
end

