-- ==== Sys2Proof/Machine/System.lean ====
section
/-! DEFINITION. The meanings of HALT and PRN (spec/41_system_halt_prn.md R80, R81). -/

namespace Sys2Proof.Machine

/-- The effect of PRN (R81). -/
def prnEffect (op1 : Byte) (s : State) : Except Cause State := do
  let r ← reg op1
  .ok ((s.emit (s.readReg r)).advance 1)

/-- HALT: `run <- Halted`; pc, x, M and out stay, with no generic advance (R80, decision D7, conflict C6; log 9). -/
def execHalt (s : State) : Outcome := .next { s with run := .halted }

/-- PRN (R81). -/
def execPrn (op1 : Byte) (s : State) : Outcome := settle s (prnEffect op1 s)

end Sys2Proof.Machine
end

