-- ==== Sys2Proof/Machine/Dispatch.lean ====
section
/-! DEFINITION. The dispatch: one arm per constructor of Instr, each a direct call of its meaning (spec/40_step_cycle.md R75). -/

namespace Sys2Proof.Machine

def exec (i : Instr) (s : State) : Host.Outcome State Fault Refusal :=
  match i with
  | .halt => Sys2Proof.Machine.execHalt s
  | .ldi op1 op2 => Sys2Proof.Machine.execLdi op1 op2 s
  | .push op1 => Sys2Proof.Machine.execPush op1 s
  | .pop op1 => Sys2Proof.Machine.execPop op1 s
  | .call op1 => Sys2Proof.Machine.execCall op1 s
  | .ret => Sys2Proof.Machine.execRet s
  | .prn op1 => Sys2Proof.Machine.execPrn op1 s
  | .add op1 op2 => Sys2Proof.Machine.execAdd op1 op2 s
  | .sub op1 op2 => Sys2Proof.Machine.execSub op1 op2 s
  | .mlt op1 op2 => Sys2Proof.Machine.execMlt op1 op2 s

end Sys2Proof.Machine
end

