-- ==== Sys2Proof/Machine/HostInterface.lean ====
section
/-! DEFINITION. What the host does to CORE and reads from it: LOAD and START before the first step, STATUS with its numbers and the exit status, and the text the sink makes of a PRN byte (spec/10_state.md R23; spec/60_exceptions.md R110, R120, R121; spec/70_reset_and_hazards.md R130, R131, R135; decision D16). -/

namespace Sys2Proof.Machine

open Sys2Proof.Config (memSize)

/-- `load(a, v)` on LOAD: `M[a] <- v`, for `a` in 0..255 (R23). There is no cell above 255, so outside that range
it leaves the state as it is. -/
def State.load (s : State) (a : Nat) (v : Byte) : State :=
  if a < memSize then { s with mem := s.mem.writeByte a v } else s

/-- Bytes loaded at addresses `a`, `a+1`, ... in order (R131). -/
def State.loadBytes (s : State) (a : Nat) : List Byte → State
  | [] => s
  | v :: vs => (s.load a v).loadBytes (a + 1) vs

/-- The loader's contract: byte `i` of the program is put at address `i` (R130, R131). A program of more than 256
bytes never becomes an IMAGE and is refused (U13, decision D6; log 11). -/
def State.loadProgram (s : State) (program : List Byte) : Option State :=
  if program.length ≤ memSize then some (s.loadBytes 0 program) else none

/-- The tag of `run` on STATUS (R120, decision D14). -/
def RunState.tag : RunState → Nat
  | .running => 0
  | .halted => 1
  | .faulted _ => 2

/-- The cause code on STATUS (R110, decision D14). -/
def Cause.code : Cause → Nat
  | .unknownOpcode _ => 1
  | .addressError _ _ => 2
  | .registerIndexError _ => 3
  | .unsupportedOperation => 4

/-- The exit status the surrounding software maps the end of a run to; none while CORE is Running (R121). -/
def RunState.exitStatus : RunState → Option Nat
  | .running => none
  | .halted => some 0
  | .faulted (.unknownOpcode _) => some 1
  | .faulted (.addressError _ _) => some Config.exitStatusExecFault
  | .faulted (.registerIndexError _) => some Config.exitStatusExecFault
  | .faulted .unsupportedOperation => some Config.exitStatusExecFault

/-- The decimal digits of a byte's value, most significant first, with no leading zero (decision D16). -/
def decimalDigits (v : Byte) : List Nat :=
  let n := v.toNat
  if n < 10 then [n]
  else if n < 100 then [n / 10, n % 10]
  else [n / 100, n / 10 % 10, n % 10]

/-- The line the sink makes of one emitted byte, as ASCII codes: the decimal numeral and one line feed (R81,
decision D16; log 9). -/
def renderLine (v : Byte) : List Byte :=
  (decimalDigits v).map (fun d => BitVec.ofNat 8 (48 + d)) ++ [0x0A]

/-- The text of a whole output, one line per PRN in program order (R81). -/
def renderOut (out : List Byte) : List Byte := out.flatMap renderLine

end Sys2Proof.Machine
end

