-- ==== Sys2Proof/Machine/Step.lean ====
section
/-! DEFINITION. One step of the dispatcher (spec/40_step_cycle.md R70, R77), and the state with a given instruction where the next step fetches it. -/

namespace Sys2Proof.Machine

/-- One step. In a Running state: fetch, decode and operand fetch, then the instruction's meaning; a cause raised
on the way is taken from the state as it was (R70, R116). A Halted or a Faulted state has no step (R7, R77;
log 1). -/
def step (s : State) : Host.Outcome State Fault Refusal :=
  match s.run with
  | .halted => .fault .halted
  | .faulted c => .fault (.faulted c)
  | .running =>
    match fetchInstr s with
    | .error c => takeFault c s
    | .ok i => exec i s

/-- `s` with the instruction whose bits are `w` (numbered as spec/opcode_table.json numbers them) stored at the
program counter, and Running, which is what the next fetch needs. It stands for the external load of a program
(R130, R131; log 11). Bytes that would lie above address 255 have no cell and are not stored. -/
def State.withFetchWord (s : State) (nbits w : Nat) : State :=
  { s.loadBytes s.pc.toNat (tableBytes nbits w) with run := .running }

end Sys2Proof.Machine
end

