-- ==== Sys2Proof/Machine/Listing.lean ====
section
/-! DEFINITION. The listing notation of spec/30_encoding.md R60(a), decisions D18 and D20: mnemonic, then operands separated by commas, destination first, registers as R and the index, immediates in unsigned decimal. -/

namespace Sys2Proof

/-- The mnemonic of a row (R53). -/
def Opcode.mnemonic : Opcode → String
  | .halt => "HALT"
  | .ldi => "LDI"
  | .push => "PUSH"
  | .pop => "POP"
  | .call => "CALL"
  | .ret => "RET"
  | .prn => "PRN"
  | .add => "ADD"
  | .sub => "SUB"
  | .mlt => "MLT"

/-- The row a mnemonic names; MUL is an accepted alias of MLT (R60, decision D18). -/
def Opcode.ofMnemonic (name : String) : Option Opcode :=
  if name = "MUL" then some .mlt else Opcode.all.find? (fun o => o.mnemonic == name)

/-- An unsigned decimal numeral (decision D20). -/
def listingByte (v : Byte) : String := toString v.toNat

/-- A register operand, R0..R7; an index above 7 is written the same way, as the spec's vectors do (R60). -/
def listingReg (k : Byte) : String := "R" ++ listingByte k

/-- One line of a listing (R60). -/
def Instr.listing (i : Instr) : String :=
  let m := i.opcode.mnemonic
  match i with
  | .halt => m
  | .ldi op1 op2 => m ++ " " ++ listingReg op1 ++ "," ++ listingByte op2
  | .push op1 => m ++ " " ++ listingReg op1
  | .pop op1 => m ++ " " ++ listingReg op1
  | .call op1 => m ++ " " ++ listingReg op1
  | .ret => m
  | .prn op1 => m ++ " " ++ listingReg op1
  | .add op1 op2 => m ++ " " ++ listingReg op1 ++ "," ++ listingReg op2
  | .sub op1 op2 => m ++ " " ++ listingReg op1 ++ "," ++ listingReg op2
  | .mlt op1 op2 => m ++ " " ++ listingReg op1 ++ "," ++ listingReg op2

end Sys2Proof
end

