-- ==== Sys2Proof/WellFormed.lean ====
section
/-! DEFINITION. Well-formed instructions: every operand byte used as a register index is 0..7 (spec/30_encoding.md R51, R56). An ill-formed instruction decodes, and running it raises RegisterIndexError (spec/40_step_cycle.md R74). -/

namespace Sys2Proof

/-- The operand bytes an instruction uses as register indices, in the order they are checked (R51, R74). The
second operand of LDI is an immediate and is not among them. -/
def Instr.registerOperands : Instr → List Byte
  | .halt => []
  | .ldi op1 _ => [op1]
  | .push op1 => [op1]
  | .pop op1 => [op1]
  | .call op1 => [op1]
  | .ret => []
  | .prn op1 => [op1]
  | .add op1 op2 => [op1, op2]
  | .sub op1 op2 => [op1, op2]
  | .mlt op1 op2 => [op1, op2]

/-- Every register-index operand is in 0..7 (R14, R51). -/
def Instr.wellFormed (i : Instr) : Bool :=
  i.registerOperands.all (fun k => k.toNat < 8)

end Sys2Proof
end

