-- ==== Sys2Proof/Safety.lean ====
section
/-! DEFINITION. What claims are stated in: the causes the machine can record, the invariant of the state, and how a run ends (spec/10_state.md R12, R15; spec/60_exceptions.md R110 to R114; spec/70_reset_and_hazards.md R134). -/

namespace Sys2Proof

/-- The registers an instruction writes: the last column of the table of R11. -/
def Instr.writtenRegisters : Instr → List Nat
  | .halt => []
  | .ldi op1 _ => [op1.toNat]
  | .push _ => [7]
  | .pop op1 => [op1.toNat, 7]
  | .call _ => [7]
  | .ret => [7]
  | .prn _ => []
  | .add op1 _ => [op1.toNat]
  | .sub op1 _ => [op1.toNat]
  | .mlt op1 _ => [op1.toNat]

/-- The registers an instruction reads: the middle column of the table of R11. -/
def Instr.readRegisters : Instr → List Nat
  | .halt => []
  | .ldi _ _ => []
  | .push op1 => [7, op1.toNat]
  | .pop _ => [7]
  | .call op1 => [7, op1.toNat]
  | .ret => [7]
  | .prn op1 => [op1.toNat]
  | .add op1 op2 => [op1.toNat, op2.toNat]
  | .sub op1 op2 => [op1.toNat, op2.toNat]
  | .mlt op1 op2 => [op1.toNat, op2.toNat]

end Sys2Proof

namespace Sys2Proof.Machine

/-- A cause with an info that the spec's tables allow (R110 to R114): an opcode in no row; AddressError with the
values of R112's table; a byte above 7; and never UnsupportedOperationError (R105). -/
def Cause.legal : Cause → Prop
  | .unknownOpcode b => Opcode.ofByte b = none
  | .addressError .fetch v => v = 256
  | .addressError .operand v => v = 256
  | .addressError .returnAddress v => v = 256
  | .addressError .stackPointer v => v = -1 ∨ v = 256
  | .registerIndexError k => 8 ≤ k.toNat
  | .unsupportedOperation => False

/-- A run state that records a legal cause, if any. -/
def RunState.legal : RunState → Prop
  | .running => True
  | .halted => True
  | .faulted c => c.legal

/-- The invariant: memory in its canonical form with every listed address in 0..255 (R19, R30), pc in 0..256
(R15), and a legal run state (R18). -/
structure State.Inv (s : State) : Prop where
  /-- The memory is in canonical form. -/
  memory : s.mem.wf
  /-- The values pc takes are 0..256 (R15). -/
  pcRange : s.pc.toNat ≤ 256
  /-- A recorded cause is one the spec allows. -/
  cause : s.run.legal

/-- The outcome is fault entry with cause `c`: a next state whose run state is `Faulted(c)`. It says nothing of
`x`, `pc` and `M`, which the source leaves open after a fault (R116, U5); `out` is as before. -/
def Raises (o : Outcome) (c : Cause) (s : State) : Prop :=
  ∃ t, o = .next t ∧ t.run = .faulted c ∧ t.out = s.out

/-- `M[pc]`, the byte the next step fetches as an opcode (R71). -/
def State.opcodeByte (s : State) : Byte := s.mem.readByte s.pc.toNat

/-- `M[pc+1]`, where the first operand lies (R57). -/
def State.operandByte (s : State) : Byte := s.mem.readByte (s.pc.toNat + 1)

/-- Every byte of memory reads in `t` as it reads in `s`. -/
def SameMemory (s t : State) : Prop := ∀ a, t.mem.readByte a = s.mem.readByte a

/-- Every byte of memory but the one at `a` reads in `t` as it reads in `s`. -/
def SameMemoryExcept (a : Nat) (s t : State) : Prop :=
  ∀ b, b ≠ a → t.mem.readByte b = s.mem.readByte b

/-- Every register whose index is not listed reads in `t` as it reads in `s`. -/
def SameRegistersExcept (written : List Nat) (s t : State) : Prop :=
  ∀ r : RegIndex, r.val ∉ written → t.readReg r = s.readReg r

/-- `t` is reached from `s` by `n` steps. -/
def StepsTo : Nat → State → State → Prop
  | 0, s, t => s = t
  | n + 1, s, t => ∃ u, step s = .next u ∧ StepsTo n u t

/-- A run from `s` ends well in `t`: by HALT (R134). -/
def EndsWell (s t : State) : Prop := ∃ n, StepsTo n s t ∧ t.run = .halted

/-- A run from `s` ends badly in `t`: in a fault (R134). -/
def EndsBadly (s t : State) : Prop := ∃ n c, StepsTo n s t ∧ t.run = .faulted c

end Sys2Proof.Machine
end

