-- ==== Sys2Proof/Certificates/Slice0/Obligations.lean ====
section
/-! DEFINITION. The statements for the provers: what the numbered rules of spec/ say CORE does. -/

open Sys2Proof Sys2Proof.Machine
open Sys2Proof.Config (SpBoundary)

/-! Encoding -/

/-- Words written out from R51 and R53 decode to the instructions they stand for. The word of SUB is the spec's
decision D2 (log 4). -/
def Obligations.SpecWordsDecode : Prop :=
  decode [0x01] = .ok (.halt, []) ∧
  decode [0x82, 0x00, 0x08] = .ok (.ldi 0 8, []) ∧
  decode [0x45, 0x07] = .ok (.push 7, []) ∧
  decode [0x46, 0x02] = .ok (.pop 2, []) ∧
  decode [0x50, 0x01] = .ok (.call 1, []) ∧
  decode [0x11] = .ok (.ret, []) ∧
  decode [0x47, 0x00] = .ok (.prn 0, []) ∧
  decode [0xA0, 0x02, 0x03] = .ok (.add 2 3, []) ∧
  decode [0xA1, 0x01, 0x00] = .ok (.sub 1 0, []) ∧
  decode [0xA2, 0x00, 0x01] = .ok (.mlt 0 1, [])

/-- Decode and encode agree, both ways: bytes decode to an instruction exactly if they are its encoding followed by the
bytes left over (R50, R51, R52, R53, R59). Every instruction is covered with every operand byte 0..255, the register
operands above 7 among them; so no bit of an encoding is dropped, and no byte string has a second reading. -/
def Obligations.DecodeInvertsEncode : Prop :=
  ∀ (bytes rest : List Byte) (i : Instr), decode bytes = .ok (i, rest) ↔ bytes = encode i ++ rest

/-- The opcode byte alone fixes the row and the length; the operand bytes take no part (R52, R59). -/
def Obligations.OpcodeByteFixesRowAndLength : Prop :=
  ∀ (b : Byte) (r₁ r₂ x₁ x₂ : List Byte) (i₁ i₂ : Instr),
    decode (b :: r₁) = .ok (i₁, x₁) → decode (b :: r₂) = .ok (i₂, x₂) →
      i₁.opcode = i₂.opcode ∧ i₁.length = i₂.length ∧
      (b :: r₁).length = i₁.length + x₁.length ∧ (b :: r₂).length = i₂.length + x₂.length

/-- The unknown opcodes are exactly the 246 values R58 lists, and a step that fetches one records
UnknownOpcodeError(byte) and changes nothing else, wherever in memory it stands and whatever bytes follow it. That the
list leaves out 0xA1 is decision D2 (log 4); that nothing else changes is decision D11 (log 6). -/
def Obligations.UnknownOpcodesFaultAtDecode : Prop :=
  ∀ b : Byte,
    (Opcode.ofByte b = none ↔
      b.toNat = 0x00 ∨ (0x02 ≤ b.toNat ∧ b.toNat ≤ 0x10) ∨ (0x12 ≤ b.toNat ∧ b.toNat ≤ 0x44) ∨
      (0x48 ≤ b.toNat ∧ b.toNat ≤ 0x4F) ∨ (0x51 ≤ b.toNat ∧ b.toNat ≤ 0x81) ∨
      (0x83 ≤ b.toNat ∧ b.toNat ≤ 0x9F) ∨ 0xA3 ≤ b.toNat) ∧
    (Opcode.ofByte b = none → ∀ rest, decode (b :: rest) = .error (.unknownOpcode b)) ∧
    (Opcode.ofByte b = none → ∀ s : State, s.run = .running → s.pc.toNat ≤ 255 → s.opcodeByte = b →
      step s = .next { s with run := .faulted (.unknownOpcode b) })

/-! The step -/

/-- Where the bytes at pc decode to an instruction, the step of a Running state is that instruction's meaning at
that state; moving pc is part of the meaning (R70 to R76). -/
def Obligations.StepRunsTheDecodedInstruction : Prop :=
  ∀ (s : State) (i : Instr) (rest : List Byte), s.run = .running →
    decode (bytesFrom s.mem s.pc.toNat) = .ok (i, rest) → step s = exec i s

/-- The faults before any instruction runs: pc above 255; an unknown opcode, wherever it stands; an operand byte
above the top of memory (R71, R72, R73). That pc does not wrap is decision D4 (log 7). -/
def Obligations.FetchAndDecodeFaults : Prop :=
  ∀ s : State, s.run = .running →
    (255 < s.pc.toNat → Raises (step s) (.addressError .fetch s.pc.toNat) s) ∧
    (s.pc.toNat ≤ 255 → Opcode.ofByte s.opcodeByte = none → Raises (step s) (.unknownOpcode s.opcodeByte) s) ∧
    (∀ o, s.pc.toNat ≤ 255 → Opcode.ofByte s.opcodeByte = some o → 255 < s.pc.toNat + o.operandCount →
      Raises (step s) (.addressError .operand 256) s)

/-- A Running state always has a step, and only a Running state has one: no instruction and no operand leaves the
machine without a next state (R7, R138). How a stopped state answers is the model's choice, log 1. -/
def Obligations.ExactlyRunningStatesStep : Prop :=
  ∀ s : State, s.run = .running ↔ ∃ t, step s = .next t

/-- Halted and Faulted have no step, and the model's answer there names the stop (log 1); Halted is entered only by a
step that fetched the HALT byte 0x01 (R77). -/
def Obligations.HaltedAndFaultedAreTerminal : Prop :=
  (∀ s : State, s.run = .halted → step s = .fault .halted) ∧
  (∀ (s : State) (c : Cause), s.run = .faulted c → step s = .fault (.faulted c)) ∧
  (∀ s t : State, step s = .next t → t.run = .halted →
    s.opcodeByte = 0x01 ∧ t = { s with run := .halted })

/-- How pc changes in a step that does not fault, for every row, as integers without wrap: the whole table of R16.
HALT leaving pc is decision D7, the 9-bit pc decision D4 (logs 7 and 9). -/
def Obligations.ProgramCounterLaw : Prop :=
  ∀ (s t : State) (o : Opcode), step s = .next t → (∀ c, t.run ≠ .faulted c) →
    Opcode.ofByte s.opcodeByte = some o →
    t.pc.toNat =
      match o with
      | .halt => s.pc.toNat
      | .ret => (s.mem.readByte s.sp.toNat).toNat
      | .push | .pop | .prn => s.pc.toNat + 2
      | .call => if h : s.operandByte.toNat < 8 then (s.decSp.readReg ⟨s.operandByte.toNat, h⟩).toNat else 0
      | .ldi | .add | .sub | .mlt => s.pc.toNat + 3

/-! Reset, load and the host -/

/-- What reset leaves, for every INIT_REGS and every IMAGE: SP is 255, pc is 0, the machine is Running, nothing has
been output, registers 0 to 6 hold INIT_REGS and memory holds IMAGE; and `State.reset` is one such state. pc = 0 is
decision D3; the values `State.reset` takes for the open parameters are the model's choices, logs 2 and 3. -/
def Obligations.ResetLeaves : Prop :=
  (∀ (initRegs : Vector Byte 7) (image : Memory),
    (State.resetWith initRegs image).sp = 255 ∧ (State.resetWith initRegs image).pc.toNat = 0 ∧
    (State.resetWith initRegs image).run = .running ∧ (State.resetWith initRegs image).out = [] ∧
    (State.resetWith initRegs image).mem = image ∧
    (∀ r : RegIndex, ∀ h : r.val < 7, (State.resetWith initRegs image).readReg r = initRegs[r.val])) ∧
  ∃ initRegs image, State.reset = State.resetWith initRegs image

/-- Loading a program of at most 256 bytes before the first step puts byte `i` at address `i`, leaves the other cells,
and touches nothing but memory; a longer one is refused (R130, R131; log 11). -/
def Obligations.LoaderPutsProgramAtZero : Prop :=
  ∀ (s : State) (program : List Byte),
    (256 < program.length → s.loadProgram program = none) ∧
    (program.length ≤ 256 → ∃ t, s.loadProgram program = some t ∧
      (∀ (i : Nat) (h : i < program.length), t.mem.readByte i = program[i]) ∧
      (∀ a, program.length ≤ a → t.mem.readByte a = s.mem.readByte a) ∧
      t.regs = s.regs ∧ t.pc = s.pc ∧ t.run = s.run ∧ t.out = s.out)

/-- The numbers STATUS shows and the exit status each end of a run is mapped to: 0 for Halted, 1 for an unknown opcode,
and one and the same non-zero status, left open, for every other cause (R110, R120, R121). The codes are decision D14,
the open status is decision D15 (log 8). -/
def Obligations.StatusCodesAndExitStatus : Prop :=
  RunState.running.tag = 0 ∧ RunState.halted.tag = 1 ∧ (∀ c, (RunState.faulted c).tag = 2) ∧
  (∀ b, (Cause.unknownOpcode b).code = 1) ∧ (∀ k v, (Cause.addressError k v).code = 2) ∧
  (∀ k, (Cause.registerIndexError k).code = 3) ∧ Cause.unsupportedOperation.code = 4 ∧
  RunState.running.exitStatus = none ∧ RunState.halted.exitStatus = some 0 ∧
  (∀ b, (RunState.faulted (.unknownOpcode b)).exitStatus = some 1) ∧
  (∀ c, c.code ≠ 1 →
    (RunState.faulted c).exitStatus = some Config.exitStatusExecFault ∧ Config.exitStatusExecFault ≠ 0)

/-- The text of one PRN byte: the decimal numeral of its unsigned value, one digit or more, digits 0 to 9 in ASCII, no
leading zero, and one line feed; a whole output is the lines in program order (R81, decision D16, log 9). -/
def Obligations.PrnTextIsDecimalLine : Prop :=
  (∀ v : Byte,
    renderLine v = (decimalDigits v).map (fun d => BitVec.ofNat 8 (48 + d)) ++ [0x0A] ∧
    decimalDigits v ≠ [] ∧ (∀ d ∈ decimalDigits v, d < 10) ∧
    (decimalDigits v).foldl (fun n d => 10 * n + d) 0 = v.toNat ∧
    ((decimalDigits v).length = 1 ∨ (decimalDigits v).head? ≠ some 0)) ∧
  (∀ (out : List Byte) (v : Byte), renderOut (out ++ [v]) = renderOut out ++ renderLine v)

/-! Memory, registers and the ALU -/

/-- MemRead and MemWrite: in 0..255 the read answers the cell and the write changes that cell only; outside, both raise
AddressError with the address (R31, R32). -/
def Obligations.MemoryAccessIsChecked : Prop :=
  ∀ (kind : AddressKind) (a : Nat) (v : Byte) (m : Memory),
    (a ≤ 255 → memRead kind a m = .ok (m.readByte a) ∧
      ∃ m', memWrite kind a v m = .ok m' ∧ m'.readByte a = v ∧ ∀ b, b ≠ a → m'.readByte b = m.readByte b) ∧
    (255 < a → memRead kind a m = .error (.addressError kind a) ∧
      memWrite kind a v m = .error (.addressError kind a))

/-- A read answers the latest write to its cell, and the initial content if there was none, after any sequence of
writes; reading changes nothing, being a function of memory alone (R37). -/
def Obligations.ReadAnswersLatestWrite : Prop :=
  ∀ (writes : List (Nat × Byte)) (m : Memory) (a : Nat),
    (writes.foldl (fun n w => n.writeByte w.1 w.2) m).readByte a =
      match writes.reverse.find? (fun w => w.1 == a) with
      | some w => w.2
      | none => m.readByte a

/-- Every register write stores the value modulo 256, for any integer, in the register named and in no other; register
7 is no exception, and SP is that register (R12, R13). -/
def Obligations.RegisterWritesAreMasked : Prop :=
  ∀ (s : State) (i : RegIndex) (v : Int),
    ((((s.writeReg i v).readReg i).toNat : Int) = v % 256) ∧
    (∀ j, j ≠ i → (s.writeReg i v).readReg j = s.readReg j) ∧
    (s.writeReg i v).sp = (s.writeReg i v).readReg 7

/-- The ALU's three functions (R100). -/
def Obligations.AluResultsAreModulo256 : Prop :=
  ∀ a b : Byte,
    (alu .add a b).toNat = (a.toNat + b.toNat) % 256 ∧
    (((alu .sub a b).toNat : Int) = ((a.toNat : Int) - b.toNat) % 256) ∧
    (a.toNat < b.toNat → (alu .sub a b).toNat = a.toNat + 256 - b.toNat) ∧
    (alu .mul a b).toNat = (a.toNat * b.toNat) % 256

/-- The laws of R104: ADD and MUL commute, SUB undoes ADD, SUB is ADD of 256 - b for b not 0, and the same bits result
when the operands are read as two's-complement numbers. -/
def Obligations.AluRingLaws : Prop :=
  ∀ a b : Byte,
    alu .add a b = alu .add b a ∧ alu .mul a b = alu .mul b a ∧ alu .sub (alu .add a b) b = a ∧
    (b ≠ 0 → alu .sub a b = alu .add a (BitVec.ofNat 8 (256 - b.toNat))) ∧
    (alu .add a b).toInt = (a.toInt + b.toInt).bmod 256 ∧
    (alu .sub a b).toInt = (a.toInt - b.toInt).bmod 256 ∧
    (alu .mul a b).toInt = (a.toInt * b.toInt).bmod 256

/-! The instructions: of each, the bytes that decode to it, then its effect, its frame and its faults -/

/-- HALT, byte 0x01: run becomes Halted, and pc, every register, memory and the output stay (R80; pc by decision D7,
log 9). -/
def Obligations.HaltStopsAndFreezes : Prop :=
  (∀ (rest : List Byte), decode (0x01 :: rest) = .ok (.halt, rest)) ∧
  ∀ s : State, ∃ t, exec .halt s = .next t ∧ t.run = .halted ∧ t.pc = s.pc ∧ t.regs = s.regs ∧
    SameMemory s t ∧ t.out = s.out

/-- LDI, byte 0x82 and two operands: the whole of R85. With a register index the register holds the immediate byte and
pc moves by 3; nothing else changes; with an index above 7 it raises RegisterIndexError; with operands above the top
of memory, AddressError. That an operand above 255 faults and that pc holds 256 after the last bytes is decision D4
(log 7). -/
def Obligations.LdiLoadsTheImmediate : Prop :=
  (∀ (op1 op2 : Byte) (rest : List Byte), decode (0x82 :: op1 :: op2 :: rest) = .ok (.ldi op1 op2, rest)) ∧
  ∀ (s : State) (op1 op2 : Byte),
    (∀ h : op1.toNat < 8, ∃ t, exec (.ldi op1 op2) s = .next t ∧
      t.readReg ⟨op1.toNat, h⟩ = op2 ∧ SameRegistersExcept [op1.toNat] s t ∧
      (s.pc.toNat ≤ 253 → t.pc.toNat = s.pc.toNat + 3) ∧
      SameMemory s t ∧ t.run = s.run ∧ t.out = s.out) ∧
    (8 ≤ op1.toNat → Raises (exec (.ldi op1 op2) s) (.registerIndexError op1) s) ∧
    (s.run = .running → s.opcodeByte = 0x82 → (s.pc.toNat = 254 ∨ s.pc.toNat = 255) →
      Raises (step s) (.addressError .operand 256) s)

/-- PRN, byte 0x47 and one operand: the byte of the named register is appended to the output, pc moves by 2, and
nothing else changes; with an index above 7 it raises RegisterIndexError and emits nothing; at 255, AddressError
(R81). That an operand above 255 faults and that pc holds 256 after the last bytes is decision D4 (log 7). -/
def Obligations.PrnEmitsTheRegister : Prop :=
  (∀ (op1 : Byte) (rest : List Byte), decode (0x47 :: op1 :: rest) = .ok (.prn op1, rest)) ∧
  ∀ (s : State) (op1 : Byte),
    (∀ h : op1.toNat < 8, ∃ t, exec (.prn op1) s = .next t ∧
      t.out = s.out ++ [s.readReg ⟨op1.toNat, h⟩] ∧ t.regs = s.regs ∧
      (s.pc.toNat ≤ 254 → t.pc.toNat = s.pc.toNat + 2) ∧ SameMemory s t ∧ t.run = s.run) ∧
    (8 ≤ op1.toNat → Raises (exec (.prn op1) s) (.registerIndexError op1) s) ∧
    (s.run = .running → s.opcodeByte = 0x47 → s.pc.toNat = 255 →
      Raises (step s) (.addressError .operand 256) s)

/-- ADD, byte 0xA0 and two operands: the whole of R101. The sum modulo 256 of the two old register values goes to the
first register, pc moves by 3, and nothing else changes, with no boundary check for register 7; the first index above
7 raises RegisterIndexError, `op1` before `op2`; at 254 or above, AddressError. The order of the two index checks is
decision D12 (log 9). That an operand above 255 faults and that pc holds 256 after the last bytes is decision D4 (log
7). -/
def Obligations.AddWritesTheSum : Prop :=
  (∀ (op1 op2 : Byte) (rest : List Byte), decode (0xA0 :: op1 :: op2 :: rest) = .ok (.add op1 op2, rest)) ∧
  ∀ (s : State) (op1 op2 : Byte),
    (∀ (h1 : op1.toNat < 8) (h2 : op2.toNat < 8), ∃ t, exec (.add op1 op2) s = .next t ∧
      (t.readReg ⟨op1.toNat, h1⟩).toNat =
        ((s.readReg ⟨op1.toNat, h1⟩).toNat + (s.readReg ⟨op2.toNat, h2⟩).toNat) % 256 ∧
      SameRegistersExcept [op1.toNat] s t ∧ (s.pc.toNat ≤ 253 → t.pc.toNat = s.pc.toNat + 3) ∧
      SameMemory s t ∧ t.run = s.run ∧ t.out = s.out) ∧
    (8 ≤ op1.toNat → Raises (exec (.add op1 op2) s) (.registerIndexError op1) s) ∧
    (op1.toNat < 8 → 8 ≤ op2.toNat → Raises (exec (.add op1 op2) s) (.registerIndexError op2) s) ∧
    (s.run = .running → s.opcodeByte = 0xA0 → (s.pc.toNat = 254 ∨ s.pc.toNat = 255) →
      Raises (step s) (.addressError .operand 256) s)

/-- SUB, byte 0xA1 and two operands: the difference, first register minus second, modulo 256, goes to the first
register; the rest as ADD (R102). Its opcode byte 0xA1 is decision D2 (log 4). The order of the two index checks is
decision D12 (log 9). That an operand above 255 faults and that pc holds 256 after the last bytes is decision D4 (log
7). -/
def Obligations.SubWritesTheDifference : Prop :=
  (∀ (op1 op2 : Byte) (rest : List Byte), decode (0xA1 :: op1 :: op2 :: rest) = .ok (.sub op1 op2, rest)) ∧
  ∀ (s : State) (op1 op2 : Byte),
    (∀ (h1 : op1.toNat < 8) (h2 : op2.toNat < 8), ∃ t, exec (.sub op1 op2) s = .next t ∧
      (((t.readReg ⟨op1.toNat, h1⟩).toNat : Int) =
        (((s.readReg ⟨op1.toNat, h1⟩).toNat : Int) - (s.readReg ⟨op2.toNat, h2⟩).toNat) % 256) ∧
      SameRegistersExcept [op1.toNat] s t ∧ (s.pc.toNat ≤ 253 → t.pc.toNat = s.pc.toNat + 3) ∧
      SameMemory s t ∧ t.run = s.run ∧ t.out = s.out) ∧
    (8 ≤ op1.toNat → Raises (exec (.sub op1 op2) s) (.registerIndexError op1) s) ∧
    (op1.toNat < 8 → 8 ≤ op2.toNat → Raises (exec (.sub op1 op2) s) (.registerIndexError op2) s) ∧
    (s.run = .running → s.opcodeByte = 0xA1 → (s.pc.toNat = 254 ∨ s.pc.toNat = 255) →
      Raises (step s) (.addressError .operand 256) s)

/-- MLT, byte 0xA2 and two operands: the whole of R103. The low 8 bits of the product of the two old register values
go to the first register; the rest as ADD. The order of the two index checks is decision D12 (log 9). That an operand
above 255 faults and that pc holds 256 after the last bytes is decision D4 (log 7). -/
def Obligations.MltWritesTheLowProduct : Prop :=
  (∀ (op1 op2 : Byte) (rest : List Byte), decode (0xA2 :: op1 :: op2 :: rest) = .ok (.mlt op1 op2, rest)) ∧
  ∀ (s : State) (op1 op2 : Byte),
    (∀ (h1 : op1.toNat < 8) (h2 : op2.toNat < 8), ∃ t, exec (.mlt op1 op2) s = .next t ∧
      (t.readReg ⟨op1.toNat, h1⟩).toNat =
        ((s.readReg ⟨op1.toNat, h1⟩).toNat * (s.readReg ⟨op2.toNat, h2⟩).toNat) % 256 ∧
      SameRegistersExcept [op1.toNat] s t ∧ (s.pc.toNat ≤ 253 → t.pc.toNat = s.pc.toNat + 3) ∧
      SameMemory s t ∧ t.run = s.run ∧ t.out = s.out) ∧
    (8 ≤ op1.toNat → Raises (exec (.mlt op1 op2) s) (.registerIndexError op1) s) ∧
    (op1.toNat < 8 → 8 ≤ op2.toNat → Raises (exec (.mlt op1 op2) s) (.registerIndexError op2) s) ∧
    (s.run = .running → s.opcodeByte = 0xA2 → (s.pc.toNat = 254 ∨ s.pc.toNat = 255) →
      Raises (step s) (.addressError .operand 256) s)

/-- ADD, SUB and MLT that name one register twice use its old value for both operands (R106). -/
def Obligations.ArithmeticReadsBeforeItWrites : Prop :=
  ∀ (s : State) (op : Byte) (h : op.toNat < 8),
    (∃ t, exec (.add op op) s = .next t ∧
      t.readReg ⟨op.toNat, h⟩ = alu .add (s.readReg ⟨op.toNat, h⟩) (s.readReg ⟨op.toNat, h⟩)) ∧
    (∃ t, exec (.sub op op) s = .next t ∧
      t.readReg ⟨op.toNat, h⟩ = alu .sub (s.readReg ⟨op.toNat, h⟩) (s.readReg ⟨op.toNat, h⟩)) ∧
    (∃ t, exec (.mlt op op) s = .next t ∧
      t.readReg ⟨op.toNat, h⟩ = alu .mul (s.readReg ⟨op.toNat, h⟩) (s.readReg ⟨op.toNat, h⟩))

/-- PUSH, byte 0x45 and one operand, from any SP but 0: SP goes down by one, the cell at the new SP holds the register
read after the decrement (so PUSH R7 stores the decremented SP), every other cell and register stays, and pc moves by
2. At SP = 0 it raises AddressError(stack_pointer, -1); an index above 7 raises RegisterIndexError first (R90). The
boundary is decision D10 (log 5), the order for R7 decision D13 (log 9). That the index is checked before the boundary
is decision D12 (log 9). That an operand above 255 faults and that pc holds 256 after the last bytes is decision D4
(log 7). -/
def Obligations.PushStoresBelowTheStackPointer : Prop :=
  (∀ (op1 : Byte) (rest : List Byte), decode (0x45 :: op1 :: rest) = .ok (.push op1, rest)) ∧
  ∀ (s : State) (op1 : Byte),
    (∀ h : op1.toNat < 8, s.sp ≠ 0 → ∃ t, exec (.push op1) s = .next t ∧
      t.sp.toNat = s.sp.toNat - 1 ∧ s.decSp.stackAddress = s.sp.toNat - 1 ∧
      t.mem.readByte s.decSp.stackAddress =
        (if op1.toNat = 7 then s.sp - 1 else s.readReg ⟨op1.toNat, h⟩) ∧
      SameMemoryExcept s.decSp.stackAddress s t ∧ SameRegistersExcept [7] s t ∧
      (s.pc.toNat ≤ 254 → t.pc.toNat = s.pc.toNat + 2) ∧ t.run = s.run ∧ t.out = s.out) ∧
    (8 ≤ op1.toNat → Raises (exec (.push op1) s) (.registerIndexError op1) s) ∧
    (op1.toNat < 8 → s.sp = 0 → Raises (exec (.push op1) s) (.addressError .stackPointer (-1)) s) ∧
    (s.run = .running → s.opcodeByte = 0x45 → s.pc.toNat = 255 →
      Raises (step s) (.addressError .operand 256) s)

/-- POP, byte 0x46 and one operand, from any SP but 255: the register holds the byte of the cell at the old SP and SP
goes up by one; for R7 the loaded byte itself is incremented, modulo 256; memory and every other register stay, and pc
moves by 2. At SP = 255 it raises AddressError(stack_pointer, 256); an index above 7 raises RegisterIndexError first
(R91). The boundary is decision D9 (log 5), the order for R7 decision D13 (log 9). That the index is checked before
the boundary is decision D12 (log 9). That an operand above 255 faults and that pc holds 256 after the last bytes is
decision D4 (log 7). -/
def Obligations.PopLoadsFromTheStackPointer : Prop :=
  (∀ (op1 : Byte) (rest : List Byte), decode (0x46 :: op1 :: rest) = .ok (.pop op1, rest)) ∧
  ∀ (s : State) (op1 : Byte),
    (∀ h : op1.toNat < 8, s.sp ≠ 255 → ∃ t, exec (.pop op1) s = .next t ∧
      (op1.toNat ≠ 7 → t.readReg ⟨op1.toNat, h⟩ = s.mem.readByte s.sp.toNat ∧
        t.sp.toNat = s.sp.toNat + 1) ∧
      (op1.toNat = 7 → t.sp.toNat = ((s.mem.readByte s.sp.toNat).toNat + 1) % 256) ∧
      SameRegistersExcept [op1.toNat, 7] s t ∧ SameMemory s t ∧
      (s.pc.toNat ≤ 254 → t.pc.toNat = s.pc.toNat + 2) ∧ t.run = s.run ∧ t.out = s.out) ∧
    (8 ≤ op1.toNat → Raises (exec (.pop op1) s) (.registerIndexError op1) s) ∧
    (op1.toNat < 8 → s.sp = 255 → Raises (exec (.pop op1) s) (.addressError .stackPointer 256) s) ∧
    (s.run = .running → s.opcodeByte = 0x46 → s.pc.toNat = 255 →
      Raises (step s) (.addressError .operand 256) s)

/-- CALL, byte 0x50 and one operand, at pc up to 253 and from any SP but 0: SP goes down by one, the cell at the new
SP holds pc + 2, pc is the register read after the decrement (so CALL R7 jumps to the decremented SP), and every other
cell and register stays. An index above 7, then a return address above 255, then SP = 0 raise their causes (R95). The
return-address check is decision D8, the boundary D10 (log 5), the order for R7 D13 (log 9). The order of the three
checks is decision D12 (log 9), and that an operand above 255 faults is decision D4 (log 7). -/
def Obligations.CallPushesAndJumps : Prop :=
  (∀ (op1 : Byte) (rest : List Byte), decode (0x50 :: op1 :: rest) = .ok (.call op1, rest)) ∧
  ∀ (s : State) (op1 : Byte),
    (∀ h : op1.toNat < 8, s.pc.toNat ≤ 253 → s.sp ≠ 0 → ∃ t, exec (.call op1) s = .next t ∧
      t.sp.toNat = s.sp.toNat - 1 ∧ s.decSp.stackAddress = s.sp.toNat - 1 ∧
      (t.mem.readByte s.decSp.stackAddress).toNat = s.pc.toNat + 2 ∧
      SameMemoryExcept s.decSp.stackAddress s t ∧ SameRegistersExcept [7] s t ∧
      t.pc.toNat = (if op1.toNat = 7 then s.sp - 1 else s.readReg ⟨op1.toNat, h⟩).toNat ∧
      t.run = s.run ∧ t.out = s.out) ∧
    (8 ≤ op1.toNat → Raises (exec (.call op1) s) (.registerIndexError op1) s) ∧
    (op1.toNat < 8 → 253 < s.pc.toNat →
      Raises (exec (.call op1) s) (.addressError .returnAddress (s.pc.toNat + 2)) s) ∧
    (op1.toNat < 8 → s.pc.toNat ≤ 253 → s.sp = 0 →
      Raises (exec (.call op1) s) (.addressError .stackPointer (-1)) s) ∧
    (s.run = .running → s.opcodeByte = 0x50 → s.pc.toNat = 255 →
      Raises (step s) (.addressError .operand 256) s)

/-- RET, byte 0x11, from any SP but 255: pc is the byte of the cell at the old SP, SP goes up by one, memory and every
other register stay. At SP = 255 it raises AddressError(stack_pointer, 256) (R96; decision D9, log 5). -/
def Obligations.RetPopsTheProgramCounter : Prop :=
  (∀ (rest : List Byte), decode (0x11 :: rest) = .ok (.ret, rest)) ∧
  ∀ s : State,
    (s.sp ≠ 255 → ∃ t, exec .ret s = .next t ∧ t.pc.toNat = (s.mem.readByte s.sp.toNat).toNat ∧
      t.sp.toNat = s.sp.toNat + 1 ∧ SameRegistersExcept [7] s t ∧ SameMemory s t ∧
      t.run = s.run ∧ t.out = s.out) ∧
    (s.sp = 255 → Raises (exec .ret s) (.addressError .stackPointer 256) s)

/-- The alternative SP_BOUNDARY = wrap: no stack-pointer fault; PUSH and CALL at SP = 0 write cell 255 and leave SP =
255, POP and RET at SP = 255 read cell 255 and leave SP = 0, but for POP R7, which leaves the byte of cell 255 plus
one, modulo 256 (R4, R90, R91, R95, R96, decisions D9, D10; log 5). The machine runs with the default; this states the
alternative's effects. What a form that names R7 does is decision D13 (log 9). -/
def Obligations.WrapAlternativeStepsModulo256 : Prop :=
  (∀ (s : State) (op1 : Byte) (h : op1.toNat < 8), s.sp = 0 →
    (∃ t, pushEffect .wrap op1 s = .ok t ∧ t.sp = 255 ∧
      t.mem.readByte 255 = (if op1.toNat = 7 then 255 else s.readReg ⟨op1.toNat, h⟩) ∧
      SameMemoryExcept 255 s t) ∧
    (s.pc.toNat ≤ 253 → ∃ t, callEffect .wrap op1 s = .ok t ∧ t.sp = 255 ∧
      (t.mem.readByte 255).toNat = s.pc.toNat + 2 ∧ SameMemoryExcept 255 s t ∧
      t.pc.toNat = (if op1.toNat = 7 then 255 else (s.readReg ⟨op1.toNat, h⟩).toNat))) ∧
  (∀ (s : State) (op1 : Byte) (h : op1.toNat < 8), s.sp = 255 →
    (op1.toNat ≠ 7 → ∃ t, popEffect .wrap op1 s = .ok t ∧ t.readReg ⟨op1.toNat, h⟩ = s.mem.readByte 255 ∧
      t.sp = 0 ∧ SameMemory s t) ∧
    (op1.toNat = 7 → ∃ t, popEffect .wrap op1 s = .ok t ∧
      t.sp.toNat = ((s.mem.readByte 255).toNat + 1) % 256 ∧ SameRegistersExcept [7] s t ∧ SameMemory s t) ∧
    (∃ t, retEffect .wrap s = .ok t ∧ t.pc.toNat = (s.mem.readByte 255).toNat ∧ t.sp = 0 ∧ SameMemory s t)) ∧
  (∀ (s : State) (op1 : Byte) (c : Cause),
    (pushEffect .wrap op1 s = .error c ∨ popEffect .wrap op1 s = .error c ∨ callEffect .wrap op1 s = .error c ∨
      retEffect .wrap s = .error c) → ∀ v, c ≠ .addressError .stackPointer v)

/-! Frames -/

/-- Whatever an instruction does, a register outside the Writes column of R11's table keeps its value: HALT and PRN
write none; LDI, ADD, SUB, MLT their first operand; PUSH, CALL and RET register 7; POP its operand and register 7. -/
def Obligations.RegistersOutsideTheTableAreKept : Prop :=
  ∀ (i : Instr) (s t : State), exec i s = .next t → SameRegistersExcept i.writtenRegisters s t

/-- Whatever it does, an instruction depends on no register outside the Reads column of R11's table: two Running
states that agree but for other registers go the same way, with the same pc, memory, run state, output and written
registers. What it says of a step that faults rests on decision D11 (log 6). -/
def Obligations.OnlyTableRegistersAreRead : Prop :=
  ∀ (i : Instr) (s u t : State), s.run = .running → u.run = .running → u.pc = s.pc → u.mem = s.mem → u.out = s.out →
    (∀ r : RegIndex, r.val ∈ i.readRegisters → u.readReg r = s.readReg r) → exec i s = .next t →
    ∃ v, exec i u = .next v ∧ v.pc = t.pc ∧ v.mem = t.mem ∧ v.run = t.run ∧ v.out = t.out ∧
      ((∀ c, t.run ≠ .faulted c) → ∀ r : RegIndex, r.val ∈ i.writtenRegisters → v.readReg r = t.readReg r)

/-- HALT, LDI, POP, RET, PRN, ADD, SUB and MLT store nothing: every byte of memory reads as before (R19, R33). -/
def Obligations.NonStoringInstructionsKeepMemory : Prop :=
  ∀ (i : Instr) (s t : State), (∀ op1, i ≠ .push op1 ∧ i ≠ .call op1) → exec i s = .next t → SameMemory s t

/-- PUSH and CALL store to one cell, the one the stack pointer addresses after the decrement; every other byte of memory
reads as before (R32, R33). -/
def Obligations.StoringInstructionsKeepOtherCells : Prop :=
  ∀ (op1 : Byte) (s t : State), (exec (.push op1) s = .next t ∨ exec (.call op1) s = .next t) →
    ∀ a, s.decSp.stackAddress = a → SameMemoryExcept a s t

/-- The run state changes only by HALT, to Halted, or by a fault (R18, R77). -/
def Obligations.RunStateChangesOnlyByHaltOrFault : Prop :=
  ∀ (i : Instr) (s t : State), exec i s = .next t →
    t.run = s.run ∨ (i = .halt ∧ t.run = .halted) ∨ ∃ c, t.run = .faulted c

/-! Rules about the whole machine -/

/-- R20, but for what the sink makes of a byte: a PRN that is executed appends the one byte of the register it names;
no other step changes the output; and CORE never reads it back: with another output so far, the same step is made and
the same bytes are appended. -/
def Obligations.OutputGrowsOnlyByPrn : Prop :=
  (∀ s t : State, step s = .next t →
    (s.opcodeByte = 0x47 ∧ (∀ c, t.run ≠ .faulted c) →
      ∃ h : s.operandByte.toNat < 8, t.out = s.out ++ [s.readReg ⟨s.operandByte.toNat, h⟩]) ∧
    (s.opcodeByte ≠ 0x47 ∨ (∃ c, t.run = .faulted c) → t.out = s.out)) ∧
  (∀ (s t : State) (o : List Byte), step s = .next t →
    ∃ added, t.out = s.out ++ added ∧ step { s with out := o } = .next { t with out := o ++ added })

/-- In a step, a memory cell changes only if the opcode fetched is that of PUSH or CALL, and only the cell at the
stack pointer after the decrement (R19, R33, conflict C3). That SP goes down by one without wrap is SP_BOUNDARY =
fault, decision D10 (log 5). -/
def Obligations.MemoryChangesOnlyByPushOrCall : Prop :=
  ∀ (s t : State) (a : Nat), step s = .next t → t.mem.readByte a ≠ s.mem.readByte a →
    (s.opcodeByte = 0x45 ∨ s.opcodeByte = 0x50) ∧ a = t.sp.toNat ∧ t.sp.toNat + 1 = s.sp.toNat

/-- Faults are precise: a step that faults changes the run state and nothing else, so pc still names the faulting
instruction (R116, decision D11; log 6). -/
def Obligations.FaultsArePrecise : Prop :=
  ∀ (s t : State) (c : Cause), step s = .next t → t.run = .faulted c → t = { s with run := .faulted c }

/-- Index validation: the first register-index operand above 7, in operand order, is the one reported, by every
instruction; and a well-formed instruction run from a Running state never reports one (R14, R74, R113). The order is
decision D12. -/
def Obligations.FirstBadIndexIsReported : Prop :=
  ∀ (i : Instr) (s : State),
    (∀ k, i.registerOperands.find? (fun k => 7 < k.toNat) = some k → Raises (exec i s) (.registerIndexError k) s) ∧
    (∀ t k, s.run = .running → exec i s = .next t → t.run = .faulted (.registerIndexError k) →
      i.wellFormed = false)

/-- Which fault a step reports, or that it reports none: the whole order of R78. Of a Running state, the run state after
the step is given by the first of these that applies: fetch address, unknown opcode, operand address, register index
(op1, then op2), CALL's return address, SP boundary; else HALT halts and everything else goes on Running (R78, R115;
decisions D4, D8, D9, D10, D12). -/
def Obligations.FaultPriorityOrder : Prop :=
  ∀ s t : State, s.run = .running → step s = .next t →
    t.run =
      if 255 < s.pc.toNat then .faulted (.addressError .fetch s.pc.toNat)
      else match Opcode.ofByte s.opcodeByte with
        | none => .faulted (.unknownOpcode s.opcodeByte)
        | some o =>
          if 255 < s.pc.toNat + o.operandCount then .faulted (.addressError .operand 256)
          else match (o.assemble s.operandByte (s.mem.readByte (s.pc.toNat + 2))).registerOperands.find?
              (fun k => 7 < k.toNat) with
            | some k => .faulted (.registerIndexError k)
            | none =>
              if o = .call ∧ 255 < s.pc.toNat + 2 then .faulted (.addressError .returnAddress 256)
              else if (o = .push ∨ o = .call) ∧ s.sp = 0 then .faulted (.addressError .stackPointer (-1))
              else if (o = .pop ∨ o = .ret) ∧ s.sp = 255 then .faulted (.addressError .stackPointer 256)
              else if o = .halt then .halted else .running

/-- The invariant holds after reset, for every INIT_REGS and every image in canonical form. -/
def Obligations.ResetMeetsTheInvariant : Prop :=
  (∀ (initRegs : Vector Byte 7) (image : Memory), image.wf → (State.resetWith initRegs image).Inv) ∧
  State.reset.Inv

/-- Every step keeps the invariant: memory in its canonical form within 0..255, pc in 0..256, and any recorded cause
one that R110 to R114 allow (R12, R15, R19, R105, R112). The range of pc is decision D4 (log 7), and the causes'
values rest on D4, D8, D9 and D10 (logs 5, 7 and 9). -/
def Obligations.EveryStepKeepsTheInvariant : Prop :=
  ∀ s t : State, s.Inv → step s = .next t → t.Inv

/-- UnsupportedOperationError is never recorded on any run from a state that meets the invariant, nor a cause that the
spec's tables do not allow (R105, R110 to R114). The causes' values rest on decisions D4, D8, D9 and D10 (logs 5, 7
and 9). -/
def Obligations.NoRunRecordsAnUnsupportedOperation : Prop :=
  ∀ (n : Nat) (s t : State), s.Inv → StepsTo n s t →
    t.run ≠ .faulted .unsupportedOperation ∧ ∀ c, t.run = .faulted c → c.legal

/-- A run ends in at most one way: two ends of runs from one state are the same state, so no run both halts and faults
(R77, R134). -/
def Obligations.RunsEndInOneWay : Prop :=
  ∀ s t u : State, (EndsWell s t ∨ EndsBadly s t) → (EndsWell s u ∨ EndsBadly s u) → t = u

/-- The law of PUSH and POP, as two steps of the machine, for every register, R7 included: from SP in 1..255, with
both instructions in memory below address 256 and the cell below SP not one of the POP's bytes, both steps go on
Running, the register and SP are back, and pc has moved by 4 (R92; decisions D10, D13, conflict C9). That pc ends at
256 where the pair fills the top of memory is decision D4 (log 7). -/
def Obligations.PushThenPopRestores : Prop :=
  ∀ (s : State) (op : Byte) (h : op.toNat < 8), s.run = .running → s.sp ≠ 0 → s.pc.toNat + 3 ≤ 255 →
    s.opcodeByte = 0x45 → s.operandByte = op →
    s.mem.readByte (s.pc.toNat + 2) = 0x46 → s.mem.readByte (s.pc.toNat + 3) = op →
    s.sp.toNat - 1 ≠ s.pc.toNat + 2 → s.sp.toNat - 1 ≠ s.pc.toNat + 3 →
    ∃ t u, step s = .next t ∧ step t = .next u ∧ u.run = .running ∧
      u.readReg ⟨op.toNat, h⟩ = s.readReg ⟨op.toNat, h⟩ ∧ u.sp = s.sp ∧ u.pc.toNat = s.pc.toNat + 4 ∧
      SameRegistersExcept [] s u ∧ SameMemoryExcept (s.sp.toNat - 1) s u

/-- The law of CALL and RET: after a CALL at address `c`, a RET executed in any later Running state with the same SP as
on entry and the pushed cell unchanged resumes at `c + 2` with SP as before the CALL (R97; decisions D8, D9, D10). -/
def Obligations.RetResumesAfterItsCall : Prop :=
  ∀ (s t u : State) (op : Byte), s.run = .running → s.opcodeByte = 0x50 → s.operandByte = op →
    step s = .next t → t.run = .running →
    u.run = .running → u.pc.toNat ≤ 255 → u.opcodeByte = 0x11 → u.sp = t.sp →
    u.mem.readByte u.sp.toNat = t.mem.readByte t.sp.toNat →
    ∃ v, step u = .next v ∧ v.run = .running ∧ v.pc.toNat = s.pc.toNat + 2 ∧ v.sp = s.sp

/-- Fetch is coherent with stores: the byte a PUSH or CALL stores is what the very next step fetches there, as opcode or
operand, and the storing instruction runs with the bytes it was fetched with, even if it overwrites them (R42). -/
def Obligations.NextFetchSeesTheStoredByte : Prop :=
  ∀ (s t : State) (kind : AddressKind), step s = .next t → t.run = .running →
    (s.opcodeByte = 0x45 → ∃ h : s.operandByte.toNat < 8,
      memRead kind t.sp.toNat t.mem = .ok (s.decSp.readReg ⟨s.operandByte.toNat, h⟩) ∧
      (t.sp.toNat = t.pc.toNat → t.opcodeByte = s.decSp.readReg ⟨s.operandByte.toNat, h⟩)) ∧
    (s.opcodeByte = 0x50 →
      memRead kind t.sp.toNat t.mem = .ok (BitVec.ofNat 8 (s.pc.toNat + 2)) ∧
      (t.sp.toNat = t.pc.toNat → t.opcodeByte = BitVec.ofNat 8 (s.pc.toNat + 2)))
end

