-- ==== Sys2Proof/Laws/Memory.lean ====
section
/-! SUPPORT. The laws of memory: a read after a write, and that every memory operation keeps the canonical form. -/

namespace Sys2Proof.Machine

open Sys2Proof.Config (memSize unlistedByte)

@[simp] theorem readByte_nil (a : Nat) : Memory.readByte [] a = unlistedByte := rfl

theorem readByte_cons (c : Host.Cell) (m : Memory) (a : Nat) :
    Memory.readByte (c :: m) a = if c.1 = a then c.2 else m.readByte a := rfl

/-- A cell whose address is not listed reads as an unlisted cell. -/
theorem readByte_of_not_listed {m : Memory} {a : Nat} (h : ∀ c ∈ m, c.1 ≠ a) :
    m.readByte a = unlistedByte := by
  induction m with
  | nil => rfl
  | cons c m ih =>
    rw [readByte_cons, if_neg (h c (by simp)), ih (fun d hd => h d (by simp [hd]))]

/-- Dropping the entries of `a` leaves the reads of other cells. -/
theorem readByte_filter_ne (m : Memory) {a b : Nat} (h : b ≠ a) :
    Memory.readByte (m.filter (fun c => c.1 != a)) b = m.readByte b := by
  induction m with
  | nil => rfl
  | cons c m ih =>
    by_cases hc : c.1 = a
    · simp [hc, ih, readByte_cons, Ne.symm h]
    · simp [hc, ih, readByte_cons]

/-- An insertion where `a` is not listed: it is read at `a`, and no other read changes. -/
theorem readByte_insertCell {m : Memory} {a : Nat} (h : ∀ c ∈ m, c.1 ≠ a) (v : Byte) (b : Nat) :
    (Memory.insertCell a v m).readByte b = if a = b then v else m.readByte b := by
  induction m with
  | nil => rfl
  | cons c m ih =>
    have hc := h c (by simp)
    have ih := ih (fun d hd => h d (by simp [hd]))
    simp only [Memory.insertCell]
    split
    · simp [readByte_cons]
    · rw [readByte_cons, ih, readByte_cons]
      split_ifs <;> simp_all

/-- A read after a write: the written byte at the same cell, the old byte at another (R32, R37). -/
theorem readByte_writeByte (m : Memory) (a b : Nat) (v : Byte) :
    (m.writeByte a v).readByte b = if a = b then v else m.readByte b := by
  have hn : ∀ c ∈ m.filter (fun c => c.1 != a), c.1 ≠ a := by simp
  simp only [Memory.writeByte]
  by_cases hv : v = unlistedByte
  · rw [if_pos hv]
    split_ifs with hab
    · rw [← hab, readByte_of_not_listed hn, hv]
    · exact readByte_filter_ne m (Ne.symm hab)
  · rw [if_neg hv, readByte_insertCell hn]
    split_ifs with hab
    · rfl
    · exact readByte_filter_ne m (Ne.symm hab)

@[simp] theorem readByte_writeByte_same (m : Memory) (a : Nat) (v : Byte) :
    (m.writeByte a v).readByte a = v := by
  simp [readByte_writeByte]

theorem readByte_writeByte_ne (m : Memory) {a b : Nat} (v : Byte) (h : b ≠ a) :
    (m.writeByte a v).readByte b = m.readByte b := by
  simp [readByte_writeByte, Ne.symm h]

theorem mem_insertCell {m : Memory} {a : Nat} {v : Byte} {c : Host.Cell}
    (h : c ∈ Memory.insertCell a v m) : c = (a, v) ∨ c ∈ m := by
  induction m with
  | nil => simpa [Memory.insertCell] using h
  | cons d m ih =>
    simp only [Memory.insertCell] at h
    split at h
    · simpa using h
    · rcases List.mem_cons.mp h with rfl | h
      · exact .inr (by simp)
      · exact (ih h).imp id (fun h => by simp [h])

theorem insertCell_rising {m : Memory} {a : Nat} (hm : m.Pairwise (fun c d => c.1 < d.1))
    (h : ∀ c ∈ m, c.1 ≠ a) (v : Byte) :
    (Memory.insertCell a v m).Pairwise (fun c d => c.1 < d.1) := by
  induction m with
  | nil => simp [Memory.insertCell]
  | cons c m ih =>
    have hc := h c (by simp)
    obtain ⟨hlt, hm⟩ := List.pairwise_cons.mp hm
    simp only [Memory.insertCell]
    split
    · rename_i hac
      exact List.pairwise_cons.mpr ⟨fun d hd => by
        rcases List.mem_cons.mp hd with rfl | hd
        · exact hac
        · exact lt_trans hac (hlt d hd), List.pairwise_cons.mpr ⟨hlt, hm⟩⟩
    · rename_i hac
      refine List.pairwise_cons.mpr ⟨fun d hd => ?_, ih hm (fun d hd => h d (by simp [hd]))⟩
      rcases mem_insertCell hd with rfl | hd
      · exact lt_of_le_of_ne (Nat.le_of_not_lt hac) hc
      · exact hlt d hd

/-- A write to an address of the space keeps the canonical form. -/
theorem writeByte_wf {m : Memory} (hm : m.wf) {a : Nat} (ha : a < memSize) (v : Byte) :
    (m.writeByte a v).wf := by
  have hr : (m.filter (fun c => c.1 != a)).Pairwise (fun c d => c.1 < d.1) := hm.1.filter _
  have hb : ∀ c ∈ m.filter (fun c => c.1 != a), c.1 < memSize ∧ c.2 ≠ unlistedByte :=
    fun c hc => hm.2 c (List.mem_of_mem_filter hc)
  simp only [Memory.writeByte]
  split
  · exact ⟨hr, hb⟩
  · rename_i hv
    refine ⟨insertCell_rising hr (by simp) v, fun c hc => ?_⟩
    rcases mem_insertCell hc with rfl | hc
    · exact ⟨ha, hv⟩
    · exact hb c hc

theorem memRead_ok {kind : AddressKind} {a : Nat} {m : Memory} (h : a < memSize) :
    memRead kind a m = .ok (m.readByte a) := by
  simp [memRead, h]

theorem memRead_error {kind : AddressKind} {a : Nat} {m : Memory} (h : ¬ a < memSize) :
    memRead kind a m = .error (.addressError kind a) := by
  simp [memRead, h]

/-- All that `MemRead` can answer (R31). -/
theorem memRead_cases {kind : AddressKind} {a : Nat} {m : Memory} {r : Except Cause Byte}
    (h : memRead kind a m = r) :
    (a < memSize ∧ r = .ok (m.readByte a)) ∨ (memSize ≤ a ∧ r = .error (.addressError kind a)) := by
  by_cases ha : a < memSize
  · exact .inl ⟨ha, by rw [← h, memRead_ok ha]⟩
  · exact .inr ⟨Nat.le_of_not_lt ha, by rw [← h, memRead_error ha]⟩

/-- All that `MemWrite` can answer (R32). -/
theorem memWrite_cases {kind : AddressKind} {a : Nat} {v : Byte} {m : Memory} {r : Except Cause Memory}
    (h : memWrite kind a v m = r) :
    (a < memSize ∧ r = .ok (m.writeByte a v)) ∨ (memSize ≤ a ∧ r = .error (.addressError kind a)) := by
  by_cases ha : a < memSize
  · exact .inl ⟨ha, by simp [← h, memWrite, ha]⟩
  · exact .inr ⟨Nat.le_of_not_lt ha, by simp [← h, memWrite, ha]⟩

/-- `MemWrite` keeps the canonical form wherever it answers a memory. -/
theorem memWrite_wf {kind : AddressKind} {a : Nat} {v : Byte} {m m' : Memory} (hm : m.wf)
    (h : memWrite kind a v m = .ok m') : m'.wf := by
  rcases memWrite_cases h with ⟨ha, h⟩ | ⟨_, h⟩
  · cases h; exact writeByte_wf hm ha v
  · cases h

/-- A load keeps the canonical form. -/
theorem load_wf {s : State} (hs : s.mem.wf) (a : Nat) (v : Byte) : (s.load a v).mem.wf := by
  unfold State.load
  split
  · rename_i ha; exact writeByte_wf hs ha v
  · exact hs

/-- Loading a sequence of bytes keeps the canonical form. -/
theorem loadBytes_wf {s : State} (hs : s.mem.wf) (a : Nat) (vs : List Byte) :
    (s.loadBytes a vs).mem.wf := by
  induction vs generalizing s a with
  | nil => exact hs
  | cons v vs ih => exact ih (load_wf hs a v) (a + 1)

end Sys2Proof.Machine
end

