-- ==== Sys2Proof/Laws/Decode.lean ====
section
/-! SUPPORT. Laws of the opcode map, the decoder and the fetch from memory. -/

namespace Sys2Proof

/-- No two rows of the opcode map share a byte (R52, R53, R54). -/
theorem opcode_bytes_distinct : (Opcode.all.map Opcode.byte).Nodup := by decide

@[simp] theorem ofByte_byte (o : Opcode) : Opcode.ofByte o.byte = some o := by
  cases o <;> rfl

/-- A byte decodes to a row exactly if it is the row's byte. -/
theorem ofByte_eq_some {b : Byte} {o : Opcode} : Opcode.ofByte b = some o ↔ o.byte = b := by
  constructor
  · intro h
    simpa using List.find?_some h
  · rintro rfl
    exact ofByte_byte o

/-- Assembling an instruction's row with its operand bytes gives the instruction back. -/
theorem assemble_opcode (o : Opcode) (op1 op2 : Byte) : (o.assemble op1 op2).opcode = o := by
  cases o <;> rfl

theorem operandBytes_length (i : Instr) : i.operandBytes.length = i.opcode.operandCount := by
  cases i <;> rfl

theorem operandCount_cases (o : Opcode) :
    o.operandCount = 0 ∨ o.operandCount = 1 ∨ o.operandCount = 2 := by
  cases o <;> decide

/-- All that the operand decoder can answer, by the row's operand count. -/
theorem decodeOperands_cases {o : Opcode} {bytes : List Byte} {i : Instr} {rest : List Byte}
    (h : decodeOperands o bytes = .ok (i, rest)) :
    (o.operandCount = 0 ∧ bytes = rest ∧ i = o.assemble 0 0) ∨
    (∃ op1, o.operandCount = 1 ∧ bytes = op1 :: rest ∧ i = o.assemble op1 0) ∨
    (∃ op1 op2, o.operandCount = 2 ∧ bytes = op1 :: op2 :: rest ∧ i = o.assemble op1 op2) := by
  cases o <;> rcases bytes with _ | ⟨a, _ | ⟨b, l⟩⟩ <;>
    simp_all [decodeOperands, Opcode.operandCount, Opcode.format, Format.operandCount]

end Sys2Proof

namespace Sys2Proof.Machine

open Sys2Proof.Config (memSize)

/-- Operand fetch from an address an opcode was fetched at: the row with the bytes after it, or, where an operand
would lie above the top of memory, AddressError(operand, 256) (R73). A row ignores the operands it does not have. -/
theorem fetchOperands_eq (o : Opcode) {pc : Nat} (h : pc < memSize) (m : Memory) :
    fetchOperands o pc m =
      if pc + o.operandCount < memSize then .ok (o.assemble (m.readByte (pc + 1)) (m.readByte (pc + 2)))
      else .error (.addressError .operand memSize) := by
  rcases operandCount_cases o with ho | ho | ho <;> rw [ho, fetchOperands, ho]
  · rw [if_pos (by omega)]
    cases o <;> first | rfl | cases ho
  · by_cases h1 : pc + 1 < memSize
    · rw [if_pos h1, memRead_ok h1]
      cases o <;> first | rfl | cases ho
    · rw [if_neg h1, memRead_error h1, show pc + 1 = memSize by omega]
      rfl
  · by_cases h1 : pc + 1 < memSize
    · rw [memRead_ok h1]
      by_cases h2 : pc + 2 < memSize
      · rw [if_pos h2, memRead_ok h2]; rfl
      · rw [if_neg h2, memRead_error h2, show pc + 2 = memSize by omega]; rfl
    · rw [if_neg (by omega), memRead_error h1, show pc + 1 = memSize by omega]
      rfl

/-- All that fetch, decode and operand fetch can answer, in the order the checks are made (R71, R72, R73, R78). -/
theorem fetchInstr_cases (s : State) :
    (memSize ≤ s.pc.toNat ∧ fetchInstr s = .error (.addressError .fetch s.pc.toNat)) ∨
    (s.pc.toNat < memSize ∧ Opcode.ofByte (s.mem.readByte s.pc.toNat) = none ∧
      fetchInstr s = .error (.unknownOpcode (s.mem.readByte s.pc.toNat))) ∨
    (∃ o, s.pc.toNat < memSize ∧ Opcode.ofByte (s.mem.readByte s.pc.toNat) = some o ∧
      memSize ≤ s.pc.toNat + o.operandCount ∧ fetchInstr s = .error (.addressError .operand memSize)) ∨
    (∃ o, s.pc.toNat + o.operandCount < memSize ∧ Opcode.ofByte (s.mem.readByte s.pc.toNat) = some o ∧
      fetchInstr s =
        .ok (o.assemble (s.mem.readByte (s.pc.toNat + 1)) (s.mem.readByte (s.pc.toNat + 2)))) := by
  by_cases h : s.pc.toNat < memSize
  · refine .inr ?_
    simp only [fetchInstr, memRead_ok h, bind, Except.bind]
    cases ho : Opcode.ofByte (s.mem.readByte s.pc.toNat) with
    | none => exact .inl ⟨h, rfl, rfl⟩
    | some o =>
      simp only [fetchOperands_eq o h]
      by_cases h2 : s.pc.toNat + o.operandCount < memSize
      · exact .inr (.inr ⟨o, h2, rfl, if_pos h2⟩)
      · exact .inr (.inl ⟨o, h, rfl, Nat.le_of_not_lt h2, if_neg h2⟩)
  · exact .inl ⟨Nat.le_of_not_lt h, by simp only [fetchInstr, memRead_error h]; rfl⟩

end Sys2Proof.Machine
end

