-- ==== Sys2Proof/Laws/State.lean ====
section
/-! SUPPORT. One lemma per field per update: what each named operation of Machine/Ops.lean and Machine/HostInterface.lean changes and leaves in the state. -/

namespace Sys2Proof.Machine

open Sys2Proof.Config (spIndex spReset)

variable (s : State)

/-! Reset -/

@[simp] theorem resetWith_pc (r : Vector Byte 7) (m : Memory) : (State.resetWith r m).pc = 0 := rfl
@[simp] theorem resetWith_mem (r : Vector Byte 7) (m : Memory) : (State.resetWith r m).mem = m := rfl
@[simp] theorem resetWith_run (r : Vector Byte 7) (m : Memory) : (State.resetWith r m).run = .running := rfl
@[simp] theorem resetWith_out (r : Vector Byte 7) (m : Memory) : (State.resetWith r m).out = [] := rfl

@[simp] theorem resetWith_sp (r : Vector Byte 7) (m : Memory) : (State.resetWith r m).sp = 255 := by
  simp [State.sp, State.readReg, State.resetWith]

theorem resetWith_readReg (r : Vector Byte 7) (m : Memory) (i : RegIndex) (h : i.val < 7) :
    (State.resetWith r m).readReg i = r[i.val] := by
  simp only [State.readReg, State.resetWith, Fin.getElem_fin]
  exact Vector.getElem_push_lt h

/-! Writing a register -/

@[simp] theorem writeReg_pc (i : RegIndex) (v : Int) : (s.writeReg i v).pc = s.pc := rfl
@[simp] theorem writeReg_mem (i : RegIndex) (v : Int) : (s.writeReg i v).mem = s.mem := rfl
@[simp] theorem writeReg_run (i : RegIndex) (v : Int) : (s.writeReg i v).run = s.run := rfl
@[simp] theorem writeReg_out (i : RegIndex) (v : Int) : (s.writeReg i v).out = s.out := rfl

/-- A read after a write: the written value modulo 256 at the same register, the old value at another. -/
theorem readReg_writeReg (i j : RegIndex) (v : Int) :
    (s.writeReg i v).readReg j = if i = j then BitVec.ofInt 8 v else s.readReg j := by
  simp only [State.readReg, State.writeReg, Fin.getElem_fin, Vector.getElem_set, Fin.val_inj]

@[simp] theorem readReg_writeReg_same (i : RegIndex) (v : Int) :
    (s.writeReg i v).readReg i = BitVec.ofInt 8 v := by
  simp [readReg_writeReg]

theorem readReg_writeReg_ne {i j : RegIndex} (v : Int) (h : j ≠ i) :
    (s.writeReg i v).readReg j = s.readReg j := by
  simp [readReg_writeReg, Ne.symm h]

/-- Writing the value of a byte stores that byte. -/
@[simp] theorem ofInt_toNat (b : Byte) : BitVec.ofInt 8 (b.toNat : Int) = b := by
  simp

/-! The advance, the jump and the output -/

@[simp] theorem advance_regs (n : Nat) : (s.advance n).regs = s.regs := rfl
@[simp] theorem advance_mem (n : Nat) : (s.advance n).mem = s.mem := rfl
@[simp] theorem advance_run (n : Nat) : (s.advance n).run = s.run := rfl
@[simp] theorem advance_out (n : Nat) : (s.advance n).out = s.out := rfl
@[simp] theorem advance_readReg (n : Nat) (i : RegIndex) : (s.advance n).readReg i = s.readReg i := rfl
@[simp] theorem advance_sp (n : Nat) : (s.advance n).sp = s.sp := rfl

/-- The advance does not wrap from any pc that an opcode was fetched at. -/
theorem advance_pc_toNat {n : Nat} (h : s.pc.toNat + 1 + n < 512) :
    (s.advance n).pc.toNat = s.pc.toNat + 1 + n := by
  simp only [State.advance, BitVec.toNat_ofNat]
  exact Nat.mod_eq_of_lt h

@[simp] theorem jump_regs (t : Byte) : (s.jump t).regs = s.regs := rfl
@[simp] theorem jump_mem (t : Byte) : (s.jump t).mem = s.mem := rfl
@[simp] theorem jump_run (t : Byte) : (s.jump t).run = s.run := rfl
@[simp] theorem jump_out (t : Byte) : (s.jump t).out = s.out := rfl
@[simp] theorem jump_readReg (t : Byte) (i : RegIndex) : (s.jump t).readReg i = s.readReg i := rfl
@[simp] theorem jump_sp (t : Byte) : (s.jump t).sp = s.sp := rfl

/-- A jump loads the byte itself: the target is always a valid address. -/
@[simp] theorem jump_pc_toNat (t : Byte) : (s.jump t).pc.toNat = t.toNat := by
  simp only [State.jump, BitVec.toNat_setWidth]
  omega

@[simp] theorem emit_regs (v : Byte) : (s.emit v).regs = s.regs := rfl
@[simp] theorem emit_pc (v : Byte) : (s.emit v).pc = s.pc := rfl
@[simp] theorem emit_mem (v : Byte) : (s.emit v).mem = s.mem := rfl
@[simp] theorem emit_run (v : Byte) : (s.emit v).run = s.run := rfl
@[simp] theorem emit_out (v : Byte) : (s.emit v).out = s.out ++ [v] := rfl
@[simp] theorem emit_readReg (v : Byte) (i : RegIndex) : (s.emit v).readReg i = s.readReg i := rfl

/-! The stack pointer -/

@[simp] theorem decSp_pc : s.decSp.pc = s.pc := rfl
@[simp] theorem decSp_mem : s.decSp.mem = s.mem := rfl
@[simp] theorem decSp_run : s.decSp.run = s.run := rfl
@[simp] theorem decSp_out : s.decSp.out = s.out := rfl
@[simp] theorem incSp_pc : s.incSp.pc = s.pc := rfl
@[simp] theorem incSp_mem : s.incSp.mem = s.mem := rfl
@[simp] theorem incSp_run : s.incSp.run = s.run := rfl
@[simp] theorem incSp_out : s.incSp.out = s.out := rfl

@[simp] theorem decSp_sp : s.decSp.sp = s.sp - 1 := by
  simp only [State.decSp, State.sp, readReg_writeReg_same]
  apply BitVec.eq_of_toNat_eq
  have one : (1 : Byte).toNat = 1 := rfl
  simp only [BitVec.toNat_ofInt, BitVec.toNat_sub, one]
  omega

@[simp] theorem incSp_sp : s.incSp.sp = s.sp + 1 := by
  simp only [State.incSp, State.sp, readReg_writeReg_same]
  apply BitVec.eq_of_toNat_eq
  have one : (1 : Byte).toNat = 1 := rfl
  simp only [BitVec.toNat_ofInt, BitVec.toNat_add, one]
  omega

theorem decSp_readReg_ne {i : RegIndex} (h : i ≠ spIndex) : s.decSp.readReg i = s.readReg i :=
  readReg_writeReg_ne s _ h

theorem incSp_readReg_ne {i : RegIndex} (h : i ≠ spIndex) : s.incSp.readReg i = s.readReg i :=
  readReg_writeReg_ne s _ h

/-! Loading -/

@[simp] theorem load_regs (a : Nat) (v : Byte) : (s.load a v).regs = s.regs := by
  unfold State.load; split <;> rfl
@[simp] theorem load_pc (a : Nat) (v : Byte) : (s.load a v).pc = s.pc := by
  unfold State.load; split <;> rfl
@[simp] theorem load_run (a : Nat) (v : Byte) : (s.load a v).run = s.run := by
  unfold State.load; split <;> rfl
@[simp] theorem load_out (a : Nat) (v : Byte) : (s.load a v).out = s.out := by
  unfold State.load; split <;> rfl

end Sys2Proof.Machine
end

