-- ==== Sys2Proof/Laws/Ops.lean ====
section
/-! SUPPORT. One lemma per shared operation of Machine/Ops.lean, Machine/Operands.lean and Machine/Flags.lean that says all it can do. -/

namespace Sys2Proof.Machine

open Sys2Proof.Config (SpBoundary)

/-! The register-index check -/

theorem reg_ok {k : Byte} (h : k.toNat < 8) : reg k = .ok ⟨k.toNat, h⟩ := by
  simp [reg, h]

theorem reg_error {k : Byte} (h : 8 ≤ k.toNat) : reg k = .error (.registerIndexError k) := by
  simp [reg, Nat.not_lt.mpr h]

/-- All that `reg(k)` can answer (R14). -/
theorem reg_cases (k : Byte) :
    (∃ h : k.toNat < 8, reg k = .ok ⟨k.toNat, h⟩) ∨
      (8 ≤ k.toNat ∧ reg k = .error (.registerIndexError k)) := by
  by_cases h : k.toNat < 8
  · exact .inl ⟨h, reg_ok h⟩
  · exact .inr ⟨Nat.le_of_not_lt h, reg_error (Nat.le_of_not_lt h)⟩

/-! The stack -/

/-- A stack write never leaves the address space: the address is a register's value (R32). -/
theorem stackStore_eq (s : State) (v : Byte) :
    s.stackStore v = .ok { s with mem := s.mem.writeByte s.stackAddress v } := by
  have h : s.stackAddress < Config.memSize := s.sp.isLt
  simp [State.stackStore, memWrite, h, bind, Except.bind]

/-- A stack read never leaves the address space (R31). -/
theorem stackLoad_eq (s : State) : s.stackLoad = .ok (s.mem.readByte s.stackAddress) :=
  memRead_ok s.sp.isLt

theorem pushBoundary_fault_zero :
    pushBoundary .fault 0 = .error (.addressError .stackPointer (-1)) := rfl

theorem pushBoundary_fault {sp : Byte} (h : sp ≠ 0) : pushBoundary .fault sp = .ok () :=
  if_neg h

theorem popBoundary_fault_top :
    popBoundary .fault 255 = .error (.addressError .stackPointer 256) := rfl

theorem popBoundary_fault {sp : Byte} (h : sp ≠ 255) : popBoundary .fault sp = .ok () :=
  if_neg h

/-- All that the boundary test of PUSH and CALL can raise. -/
theorem pushBoundary_error {b : SpBoundary} {sp : Byte} {c : Cause}
    (h : pushBoundary b sp = .error c) : sp = 0 ∧ c = .addressError .stackPointer (-1) := by
  cases b
  · by_cases hs : sp = 0
    · subst hs; cases h; exact ⟨rfl, rfl⟩
    · rw [pushBoundary_fault hs] at h; cases h
  · cases h

/-- All that the boundary test of POP and RET can raise. -/
theorem popBoundary_error {b : SpBoundary} {sp : Byte} {c : Cause}
    (h : popBoundary b sp = .error c) : sp = 255 ∧ c = .addressError .stackPointer 256 := by
  cases b
  · by_cases hs : sp = 255
    · subst hs; cases h; exact ⟨rfl, rfl⟩
    · rw [popBoundary_fault hs] at h; cases h
  · cases h

/-! The end of an instruction -/

/-- All that the end of an instruction can answer: always a next state (R7, R116). -/
theorem settle_next {s t : State} {r : Except Cause State} (h : settle s r = .next t) :
    r = .ok t ∨ ∃ c, r = .error c ∧ t = { s with run := .faulted c } := by
  cases r with
  | ok u => left; simpa [settle] using h
  | error c => right; exact ⟨c, rfl, by simpa [settle, takeFault] using h.symm⟩

@[simp] theorem settle_ok (s t : State) : settle s (.ok t) = .next t := rfl

@[simp] theorem settle_error (s : State) (c : Cause) :
    settle s (.error c) = .next { s with run := .faulted c } := rfl

end Sys2Proof.Machine
end

