-- ==== Sys2Proof/Laws/Exec.lean ====
section
/-! SUPPORT. One lemma per effect that says once all it can do: the state it leaves, under its conditions, and the causes it can raise, under theirs. -/

namespace Sys2Proof.Machine

open Sys2Proof.Config (SpBoundary)

/-- All that the effect of LDI can do (R85). -/
theorem ldiEffect_cases (op1 op2 : Byte) (s : State) :
    (∃ h : op1.toNat < 8, ldiEffect op1 op2 s =
      .ok ((s.writeReg ⟨op1.toNat, h⟩ op2.toNat).advance 2)) ∨
    (8 ≤ op1.toNat ∧ ldiEffect op1 op2 s = .error (.registerIndexError op1)) := by
  rcases reg_cases op1 with ⟨h, hr⟩ | ⟨h, hr⟩
  · exact .inl ⟨h, by simp [ldiEffect, hr, bind, Except.bind]⟩
  · exact .inr ⟨h, by simp [ldiEffect, hr, bind, Except.bind]⟩

/-- All that the effect of PRN can do (R81). -/
theorem prnEffect_cases (op1 : Byte) (s : State) :
    (∃ h : op1.toNat < 8, prnEffect op1 s = .ok ((s.emit (s.readReg ⟨op1.toNat, h⟩)).advance 1)) ∨
    (8 ≤ op1.toNat ∧ prnEffect op1 s = .error (.registerIndexError op1)) := by
  rcases reg_cases op1 with ⟨h, hr⟩ | ⟨h, hr⟩
  · exact .inl ⟨h, by simp [prnEffect, hr, bind, Except.bind]⟩
  · exact .inr ⟨h, by simp [prnEffect, hr, bind, Except.bind]⟩

/-- All that the effect of ADD, SUB and MLT can do (R101 to R103). -/
theorem arithEffect_cases (o : AluOp) (op1 op2 : Byte) (s : State) :
    (∃ (h1 : op1.toNat < 8) (h2 : op2.toNat < 8), arithEffect o op1 op2 s =
      .ok ((s.writeReg ⟨op1.toNat, h1⟩
        (alu o (s.readReg ⟨op1.toNat, h1⟩) (s.readReg ⟨op2.toNat, h2⟩)).toNat).advance 2)) ∨
    (8 ≤ op1.toNat ∧ arithEffect o op1 op2 s = .error (.registerIndexError op1)) ∨
    (op1.toNat < 8 ∧ 8 ≤ op2.toNat ∧ arithEffect o op1 op2 s = .error (.registerIndexError op2)) := by
  rcases reg_cases op1 with ⟨h1, hr1⟩ | ⟨h1, hr1⟩
  · rcases reg_cases op2 with ⟨h2, hr2⟩ | ⟨h2, hr2⟩
    · exact .inl ⟨h1, h2, by simp [arithEffect, hr1, hr2, bind, Except.bind]⟩
    · exact .inr (.inr ⟨h1, h2, by simp [arithEffect, hr1, hr2, bind, Except.bind]⟩)
  · exact .inr (.inl ⟨h1, by simp [arithEffect, hr1, bind, Except.bind]⟩)

/-- All that the effect of PUSH can do (R90). -/
theorem pushEffect_cases (b : SpBoundary) (op1 : Byte) (s : State) :
    (∃ h : op1.toNat < 8, pushBoundary b s.sp = .ok () ∧ pushEffect b op1 s =
      .ok (State.advance { s.decSp with
        mem := s.mem.writeByte s.decSp.stackAddress (s.decSp.readReg ⟨op1.toNat, h⟩) } 1)) ∨
    (8 ≤ op1.toNat ∧ pushEffect b op1 s = .error (.registerIndexError op1)) ∨
    (op1.toNat < 8 ∧ s.sp = 0 ∧ pushBoundary b s.sp = .error (.addressError .stackPointer (-1)) ∧
      pushEffect b op1 s = .error (.addressError .stackPointer (-1))) := by
  rcases reg_cases op1 with ⟨h, hr⟩ | ⟨h, hr⟩
  · cases hb : pushBoundary b s.sp with
    | ok u => exact .inl ⟨h, rfl, by simp [pushEffect, hr, hb, stackStore_eq, bind, Except.bind]⟩
    | error c =>
      obtain ⟨h0, rfl⟩ := pushBoundary_error hb
      exact .inr (.inr ⟨h, h0, rfl, by simp [pushEffect, hr, hb, bind, Except.bind]⟩)
  · exact .inr (.inl ⟨h, by simp [pushEffect, hr, bind, Except.bind]⟩)

/-- All that the effect of POP can do (R91). -/
theorem popEffect_cases (b : SpBoundary) (op1 : Byte) (s : State) :
    (∃ h : op1.toNat < 8, popBoundary b s.sp = .ok () ∧ popEffect b op1 s =
      .ok ((s.writeReg ⟨op1.toNat, h⟩ (s.mem.readByte s.stackAddress).toNat).incSp.advance 1)) ∨
    (8 ≤ op1.toNat ∧ popEffect b op1 s = .error (.registerIndexError op1)) ∨
    (op1.toNat < 8 ∧ s.sp = 255 ∧ popBoundary b s.sp = .error (.addressError .stackPointer 256) ∧
      popEffect b op1 s = .error (.addressError .stackPointer 256)) := by
  rcases reg_cases op1 with ⟨h, hr⟩ | ⟨h, hr⟩
  · cases hb : popBoundary b s.sp with
    | ok u => exact .inl ⟨h, rfl, by simp [popEffect, hr, hb, stackLoad_eq, bind, Except.bind]⟩
    | error c =>
      obtain ⟨h0, rfl⟩ := popBoundary_error hb
      exact .inr (.inr ⟨h, h0, rfl, by simp [popEffect, hr, hb, bind, Except.bind]⟩)
  · exact .inr (.inl ⟨h, by simp [popEffect, hr, bind, Except.bind]⟩)

/-- All that the effect of CALL can do (R95). -/
theorem callEffect_cases (b : SpBoundary) (op1 : Byte) (s : State) :
    (∃ h : op1.toNat < 8, s.returnAddress ≤ 255 ∧ pushBoundary b s.sp = .ok () ∧ callEffect b op1 s =
      .ok (State.jump { s.decSp with
        mem := s.mem.writeByte s.decSp.stackAddress (BitVec.ofNat 8 s.returnAddress) }
          (s.decSp.readReg ⟨op1.toNat, h⟩))) ∨
    (8 ≤ op1.toNat ∧ callEffect b op1 s = .error (.registerIndexError op1)) ∨
    (op1.toNat < 8 ∧ 255 < s.returnAddress ∧
      callEffect b op1 s = .error (.addressError .returnAddress s.returnAddress)) ∨
    (op1.toNat < 8 ∧ s.returnAddress ≤ 255 ∧ s.sp = 0 ∧
      pushBoundary b s.sp = .error (.addressError .stackPointer (-1)) ∧
      callEffect b op1 s = .error (.addressError .stackPointer (-1))) := by
  rcases reg_cases op1 with ⟨h, hr⟩ | ⟨h, hr⟩
  · by_cases ha : s.returnAddress > 255
    · exact .inr (.inr (.inl ⟨h, ha, by
        simp [callEffect, hr, checkReturnAddress, ha, bind, Except.bind]⟩))
    · have ha' := Nat.le_of_not_lt ha
      cases hb : pushBoundary b s.sp with
      | ok u =>
        exact .inl ⟨h, ha', rfl, by
          simp [callEffect, hr, checkReturnAddress, ha, hb, stackStore_eq, bind, Except.bind]; rfl⟩
      | error c =>
        obtain ⟨h0, rfl⟩ := pushBoundary_error hb
        exact .inr (.inr (.inr ⟨h, ha', h0, rfl, by
          simp [callEffect, hr, checkReturnAddress, ha, hb, bind, Except.bind]⟩))
  · exact .inr (.inl ⟨h, by simp [callEffect, hr, bind, Except.bind]⟩)

/-- All that the effect of RET can do (R96). -/
theorem retEffect_cases (b : SpBoundary) (s : State) :
    (popBoundary b s.sp = .ok () ∧
      retEffect b s = .ok (s.jump (s.mem.readByte s.stackAddress)).incSp) ∨
    (s.sp = 255 ∧ popBoundary b s.sp = .error (.addressError .stackPointer 256) ∧
      retEffect b s = .error (.addressError .stackPointer 256)) := by
  cases hb : popBoundary b s.sp with
  | ok u => exact .inl ⟨rfl, by simp [retEffect, hb, stackLoad_eq, bind, Except.bind]⟩
  | error c =>
    obtain ⟨h0, rfl⟩ := popBoundary_error hb
    exact .inr ⟨h0, rfl, by simp [retEffect, hb, bind, Except.bind]⟩

/-- All that a step can do (R7, R70, R77). -/
theorem step_cases (s : State) :
    (s.run = .halted ∧ step s = .fault .halted) ∨
    (∃ c, s.run = .faulted c ∧ step s = .fault (.faulted c)) ∨
    (s.run = .running ∧ ∃ c, fetchInstr s = .error c ∧ step s = .next { s with run := .faulted c }) ∨
    (s.run = .running ∧ ∃ i, fetchInstr s = .ok i ∧ step s = exec i s) := by
  unfold step
  cases hr : s.run with
  | halted => exact .inl ⟨rfl, rfl⟩
  | faulted c => exact .inr (.inl ⟨c, rfl, rfl⟩)
  | running =>
    cases hf : fetchInstr s with
    | error c => exact .inr (.inr (.inl ⟨rfl, c, rfl, rfl⟩))
    | ok i => exact .inr (.inr (.inr ⟨rfl, i, rfl, rfl⟩))

end Sys2Proof.Machine
end

