-- ==== Sys2Proof/Laws/PerInstr.lean ====
section
/-! SUPPORT. Statements made for all instructions, one lemma per constructor. Shape: what the encoding of an instruction looks like (spec/30_encoding.md R50, R53, R55, R59). -/

namespace Sys2Proof.Laws.Shape

/-- What bits 7:6, 5 and 4 of every opcode byte show: the operand count, the use of the ALU, and the assignment of
pc. Read off the table; the decoder does not use them (R55). -/
def Regular (o : Opcode) : Prop :=
  o.byte.toNat / 64 = o.operandCount ∧
  (o.byte.getLsbD 5 = true ↔ o = .add ∨ o = .sub ∨ o = .mlt) ∧
  (o.byte.getLsbD 4 = true ↔ o = .call ∨ o = .ret)

theorem regular (o : Opcode) : Regular o := by
  unfold Regular
  cases o <;> decide

/-- The encoding is the row's opcode byte and as many operand bytes as the row has, 1 to 3 bytes in all (R50, R59),
and the opcode byte is regular (R55). -/
def Statement (i : Instr) : Prop :=
  (encode i).head? = some i.opcode.byte ∧ (encode i).length = i.length ∧ i.length ≤ 3 ∧ Regular i.opcode

theorem halt : Statement .halt := ⟨rfl, rfl, Nat.le_of_ble_eq_true rfl, regular _⟩
theorem ldi (op1 op2 : Byte) : Statement (.ldi op1 op2) := ⟨rfl, rfl, Nat.le_of_ble_eq_true rfl, regular _⟩
theorem push (op1 : Byte) : Statement (.push op1) := ⟨rfl, rfl, Nat.le_of_ble_eq_true rfl, regular _⟩
theorem pop (op1 : Byte) : Statement (.pop op1) := ⟨rfl, rfl, Nat.le_of_ble_eq_true rfl, regular _⟩
theorem call (op1 : Byte) : Statement (.call op1) := ⟨rfl, rfl, Nat.le_of_ble_eq_true rfl, regular _⟩
theorem ret : Statement .ret := ⟨rfl, rfl, Nat.le_of_ble_eq_true rfl, regular _⟩
theorem prn (op1 : Byte) : Statement (.prn op1) := ⟨rfl, rfl, Nat.le_of_ble_eq_true rfl, regular _⟩
theorem add (op1 op2 : Byte) : Statement (.add op1 op2) := ⟨rfl, rfl, Nat.le_of_ble_eq_true rfl, regular _⟩
theorem sub (op1 op2 : Byte) : Statement (.sub op1 op2) := ⟨rfl, rfl, Nat.le_of_ble_eq_true rfl, regular _⟩
theorem mlt (op1 op2 : Byte) : Statement (.mlt op1 op2) := ⟨rfl, rfl, Nat.le_of_ble_eq_true rfl, regular _⟩

end Sys2Proof.Laws.Shape
end

