-- ==== Sys2Proof/Tests/Slice0.lean ====
section
/-! SUPPORT. Tests: expected results are the spec's own words, vectors and worked examples (spec/30_encoding.md R51, R53; spec/95_test_vectors.md), and for each statement with hypotheses a witness that meets them. -/

namespace Sys2Proof.Tests

open Sys2Proof Sys2Proof.Machine

/-- A Running state with the given pc, registers and listed memory, and no output yet. -/
def stateAt (pc : PcWord) (regs : Vector Byte 8) (mem : Memory) : State := ⟨regs, pc, mem, .running, []⟩

/-- Registers 0 and 1, and the stack pointer; the others 0. -/
def regs (r0 r1 sp : Byte) : Vector Byte 8 := #v[r0, r1, 0, 0, 0, 0, 0, sp]

/-- The state after one step, if there is one. -/
def after (s : State) : Option State :=
  match step s with
  | .next t => some t
  | .fault _ => none
  | .refused _ => none

/-! Well-formedness: an ill-formed term for each register operand of each format is refused (R51) -/

theorem test_illFormed_ldi_op1 : (Instr.ldi 8 0).wellFormed = false := by decide
theorem test_illFormed_push_op1 : (Instr.push 8).wellFormed = false := by decide
theorem test_illFormed_pop_op1 : (Instr.pop 10).wellFormed = false := by decide
theorem test_illFormed_call_op1 : (Instr.call 255).wellFormed = false := by decide
theorem test_illFormed_prn_op1 : (Instr.prn 8).wellFormed = false := by decide
theorem test_illFormed_add_op1 : (Instr.add 8 0).wellFormed = false := by decide
theorem test_illFormed_add_op2 : (Instr.add 0 8).wellFormed = false := by decide
theorem test_illFormed_sub_op1 : (Instr.sub 128 0).wellFormed = false := by decide
theorem test_illFormed_sub_op2 : (Instr.sub 0 128).wellFormed = false := by decide
theorem test_illFormed_mlt_op1 : (Instr.mlt 9 0).wellFormed = false := by decide
theorem test_illFormed_mlt_op2 : (Instr.mlt 0 9).wellFormed = false := by decide
theorem test_wellFormed_ldi_immediate_unchecked : (Instr.ldi 7 255).wellFormed = true := by decide

/-! Decoding: every row's word written out bit by bit (R51, R53) -/

theorem test_decode_halt : decode [0b00000001] = .ok (.halt, []) := by decide
theorem test_decode_ldi : decode [0b10000010, 0b00000111, 0b10000000] = .ok (.ldi 7 128, []) := by decide
theorem test_decode_push : decode [0b01000101, 0b00000001, 0xFF] = .ok (.push 1, [0xFF]) := by decide
theorem test_decode_pop : decode [0b01000110, 0b00000010] = .ok (.pop 2, []) := by decide
theorem test_decode_call : decode [0b01010000, 0b00000011] = .ok (.call 3, []) := by decide
theorem test_decode_ret : decode [0b00010001, 0x01] = .ok (.ret, [0x01]) := by decide
theorem test_decode_prn : decode [0b01000111, 0b00000100] = .ok (.prn 4, []) := by decide
theorem test_decode_add : decode [0b10100000, 0b00000010, 0b00000011] = .ok (.add 2 3, []) := by decide
theorem test_decode_sub : decode [0b10100001, 0b00000001, 0b00000000] = .ok (.sub 1 0, []) := by decide
theorem test_decode_mlt : decode [0b10100010, 0b00000000, 0b00000001] = .ok (.mlt 0 1, []) := by decide

/-- R59: the same bytes are LDI R1,1 from the first, HALT from the second. -/
theorem test_decode_depends_on_entry :
    decode [0x82, 0x01, 0x01] = .ok (.ldi 1 1, []) ∧ decode [0x01, 0x01] = .ok (.halt, [0x01]) := by decide
/-- R58, V-UNK-1 to V-UNK-5: no NOP, and no use of the bit regularities. -/
theorem test_decode_unknown :
    decode [0x00] = .error (.unknownOpcode 0x00) ∧ decode [0xFF] = .error (.unknownOpcode 0xFF) ∧
    decode [0x83] = .error (.unknownOpcode 0x83) ∧ decode [0xA3, 0, 1] = .error (.unknownOpcode 0xA3) ∧
    decode [0x02] = .error (.unknownOpcode 0x02) := by decide
theorem test_decode_short :
    decode [] = .error .noOpcode ∧ decode [0x82] = .error (.missingOperand 1) ∧
    decode [0x82, 0] = .error (.missingOperand 2) ∧ decode [0x45] = .error (.missingOperand 1) := by decide

/-- The match words of spec/opcode_table.json, as the table numbers their bits. -/
theorem test_decodeTableWord_rows :
    decodeTableWord 8 0x01 = some .halt ∧ decodeTableWord 24 0x820000 = some (.ldi 0 0) ∧
    decodeTableWord 16 0x4500 = some (.push 0) ∧ decodeTableWord 16 0x4600 = some (.pop 0) ∧
    decodeTableWord 16 0x5000 = some (.call 0) ∧ decodeTableWord 8 0x11 = some .ret ∧
    decodeTableWord 16 0x4700 = some (.prn 0) ∧ decodeTableWord 24 0xA00203 = some (.add 2 3) ∧
    decodeTableWord 24 0xA10000 = some (.sub 0 0) ∧ decodeTableWord 24 0xA20001 = some (.mlt 0 1) ∧
    decodeTableWord 8 0x00 = none := by decide
/-- The first step after reset runs the word put there: LDI R1,42. -/
theorem test_withFetchWord_runs :
    (after (State.reset.withFetchWord 24 0x82012A)).map (fun t => (t.readReg 1, t.pc)) = some (42, 3) := by decide
/-- R60, decision D20. -/
theorem test_listing :
    (Instr.ldi 0 8).listing = "LDI R0,8" ∧ (Instr.mlt 0 1).listing = "MLT R0,R1" ∧
    Opcode.ofMnemonic "MUL" = some .mlt ∧ Opcode.ofMnemonic "MLT" = some .mlt := by decide

/-! Memory, reset and the host -/

theorem test_reset_memory_wf : State.reset.mem.wf := by decide
/-- Writing what an unlisted cell reads as removes the entry, and entries stay sorted. -/
theorem test_memory_canonical :
    Memory.writeByte (Memory.writeByte [] 9 7) 3 5 = [(3, 5), (9, 7)] ∧
    Memory.writeByte [(3, 5), (9, 7)] 9 0 = [(3, 5)] := by decide
/-- S1's first bytes loaded at 0 upward. -/
theorem test_loadProgram :
    (State.reset.loadProgram [0x82, 0x00, 0x08]).map (fun t => t.mem) = some [(0, 0x82), (2, 0x08)] := by decide
/-- Decision D16's examples. -/
theorem test_renderOut : renderOut [0, 72, 254] = [0x30, 0x0A, 0x37, 0x32, 0x0A, 0x32, 0x35, 0x34, 0x0A] := by decide

/-! One step of each instruction, at most two tests each (spec/95_test_vectors.md part 2) -/

/-- V-HALT-2. -/
theorem test_halt_last_cell :
    (after (stateAt 255 (regs 0 0 255) [(255, 0x01)])).map (fun t => (t.run, t.pc)) = some (.halted, 255) := by decide
/-- V-PRN-2. -/
theorem test_prn_stack_pointer :
    (after (stateAt 0 (regs 0 0 255) [(0, 0x47), (1, 0x07)])).map (fun t => (t.out, t.pc)) = some ([255], 2) := by decide
/-- V-PRN-3. -/
theorem test_prn_bad_index :
    (after (stateAt 0 (regs 0 0 255) [(0, 0x47), (1, 0x08)])).map (fun t => (t.run, t.out)) =
      some (.faulted (.registerIndexError 8), []) := by decide
/-- V-LDI-2. -/
theorem test_ldi_stack_pointer :
    (after (stateAt 0 (regs 0 0 255) [(0, 0x82), (1, 0x07), (2, 0x80)])).map (fun t => (t.sp, t.pc)) =
      some (128, 3) := by decide
/-- V-LDI-5: pc becomes 256, still Running. -/
theorem test_ldi_top_of_memory :
    (after (stateAt 253 (regs 0 0 255) [(253, 0x82), (255, 0x07)])).map (fun t => (t.readReg 0, t.pc.toNat, t.run)) =
      some (7, 256, .running) := by decide
/-- V-PUSH-2. -/
theorem test_push_r7_stores_decremented :
    (after (stateAt 0 (regs 0 0 255) [(0, 0x45), (1, 0x07)])).map (fun t => (t.sp, t.mem.readByte 254, t.pc)) =
      some (254, 254, 2) := by decide
/-- V-PUSH-3. -/
theorem test_push_boundary :
    (after (stateAt 0 (regs 0 9 0) [(0, 0x45), (1, 0x01)])).map (fun t => (t.run, t.sp)) =
      some (.faulted (.addressError .stackPointer (-1)), 0) := by decide
/-- V-POP-1. -/
theorem test_pop_keeps_cell :
    (after (stateAt 0 (regs 0 0 253) [(0, 0x46), (253, 200)])).map
      (fun t => (t.readReg 0, t.sp, t.mem.readByte 253, t.pc)) = some (200, 254, 200, 2) := by decide
/-- V-POP-4. -/
theorem test_pop_r7_wraps :
    (after (stateAt 0 (regs 0 0 100) [(0, 0x46), (1, 0x07), (100, 255)])).map (fun t => (t.sp, t.run)) =
      some (0, .running) := by decide
/-- V-CALL-2. -/
theorem test_call_r7_jumps_to_decremented :
    (after (stateAt 0 (regs 0 0 100) [(0, 0x50), (1, 0x07)])).map (fun t => (t.sp, t.mem.readByte 99, t.pc)) =
      some (99, 2, 99) := by decide
/-- V-CALL-3. -/
theorem test_call_return_address :
    (after (stateAt 254 (regs 3 0 255) [(254, 0x50)])).map (fun t => (t.run, t.sp)) =
      some (.faulted (.addressError .returnAddress 256), 255) := by decide
/-- V-RET-1. -/
theorem test_ret_pops_pc :
    (after (stateAt 18 (regs 0 0 254) [(18, 0x11), (254, 8)])).map (fun t => (t.pc, t.sp, t.mem.readByte 254)) =
      some (8, 255, 8) := by decide
/-- V-RET-2. -/
theorem test_ret_empty_stack :
    (after (stateAt 0 (regs 0 0 255) [(0, 0x11)])).map (fun t => t.run) =
      some (.faulted (.addressError .stackPointer 256)) := by decide
/-- V-ADD-2: the same register twice. -/
theorem test_add_same_register :
    (after (stateAt 0 (regs 200 0 255) [(0, 0xA0)])).map (fun t => (t.readReg 0, t.pc)) = some (144, 3) := by decide
/-- V-ADD-7: op1 is reported before op2. -/
theorem test_add_bad_indices :
    (after (stateAt 0 (regs 0 0 255) [(0, 0xA0), (1, 0x09), (2, 0x0A)])).map (fun t => t.run) =
      some (.faulted (.registerIndexError 9)) := by decide
/-- V-SUB-1. -/
theorem test_sub_borrows :
    (after (stateAt 0 (regs 3 5 255) [(0, 0xA1), (2, 0x01)])).map (fun t => (t.readReg 0, t.readReg 1)) =
      some (254, 5) := by decide
/-- V-SUB-5: op1 minus op2. -/
theorem test_sub_operand_order :
    (after (stateAt 0 (regs 3 5 255) [(0, 0xA1), (1, 0x01)])).map (fun t => (t.readReg 0, t.readReg 1)) =
      some (3, 2) := by decide
/-- V-MLT-3. -/
theorem test_mlt_low_byte :
    (after (stateAt 0 (regs 255 255 255) [(0, 0xA2), (2, 0x01)])).map (fun t => (t.readReg 0, t.pc)) =
      some (1, 3) := by decide
/-- V-MLT-8. -/
theorem test_mlt_operand_above_memory :
    (after (stateAt 254 (regs 0 0 255) [(254, 0xA2)])).map (fun t => (t.run, t.pc)) =
      some (.faulted (.addressError .operand 256), 254) := by decide
/-- V-FETCH-1. -/
theorem test_fetch_above_memory :
    (after (stateAt 256 (regs 0 0 255) [])).map (fun t => t.run) =
      some (.faulted (.addressError .fetch 256)) := by decide
/-- V-UNK-3. -/
theorem test_unknown_opcode_before_operands :
    (after (stateAt 255 (regs 0 0 255) [(255, 0x83)])).map (fun t => t.run) =
      some (.faulted (.unknownOpcode 0x83)) := by decide

/-! Witnesses: for each statement with hypotheses, a state and operands that meet them, each clause at a boundary -/

/-- A PUSH at the highest address it fits, SP at the bottom of its range. -/
def pushState : State := stateAt 254 (regs 5 0 1) [(254, 0x45)]
/-- A CALL at the highest legal address. -/
def callState : State := stateAt 253 (regs 9 0 255) [(253, 0x50)]
/-- A RET in the last cell. -/
def retState : State := stateAt 255 (regs 0 0 254) [(254, 255), (255, 0x11)]
/-- A PRN at the highest address it fits. -/
def prnState : State := stateAt 254 (regs 5 0 255) [(254, 0x47)]
/-- A HALT in the last cell. -/
def haltState : State := stateAt 255 (regs 0 0 255) [(255, 0x01)]
/-- PUSH R0; POP R0 at the highest address the pair fits, at the lowest SP. -/
def pairState : State := stateAt 252 (regs 5 0 1) [(252, 0x45), (254, 0x46)]
/-- A state whose step faults, one operand byte short. -/
def shortState (b : Byte) : State := stateAt 255 (regs 0 0 255) [(255, b)]
/-- The same, for a row of two operands one byte short. -/
def shortState₂ (b : Byte) : State := stateAt 254 (regs 0 0 255) [(254, b)]

theorem witness_DecodeInvertsEncode :
    decode [0x46, 0xFF, 0x01] = .ok (.pop 255, [0x01]) ∧ [0x46, 0xFF, 0x01] = encode (.pop 255) ++ [0x01] := by decide
theorem witness_OpcodeByteFixesRowAndLength :
    decode (0x82 :: [0, 255]) = .ok (.ldi 0 255, []) ∧ decode (0x82 :: [255, 0, 1]) = .ok (.ldi 255 0, [1]) := by decide
theorem witness_UnknownOpcodesFaultAtDecode :
    Opcode.ofByte 0x83 = none ∧ (shortState 0x83).run = .running ∧ (shortState 0x83).pc.toNat ≤ 255 ∧
    (shortState 0x83).opcodeByte = 0x83 := by decide
theorem witness_StepRunsTheDecodedInstruction :
    pushState.run = .running ∧ decode (bytesFrom pushState.mem pushState.pc.toNat) = .ok (.push 0, []) := by decide
theorem witness_FetchAndDecodeFaults :
    (stateAt 256 (regs 0 0 255) []).run = .running ∧ 255 < (stateAt 256 (regs 0 0 255) []).pc.toNat ∧
    (shortState 0x83).pc.toNat ≤ 255 ∧ Opcode.ofByte (shortState 0x83).opcodeByte = none ∧
    (shortState₂ 0xA1).pc.toNat ≤ 255 ∧ Opcode.ofByte (shortState₂ 0xA1).opcodeByte = some .sub ∧
    255 < (shortState₂ 0xA1).pc.toNat + Opcode.sub.operandCount := by decide
theorem witness_ExactlyRunningStatesStep : haltState.run = .running ∧ ∃ t, step haltState = .next t :=
  ⟨rfl, _, rfl⟩
theorem witness_HaltedAndFaultedAreTerminal :
    (∃ t, step haltState = .next t ∧ t.run = .halted ∧ step t = .fault .halted) ∧
    (∃ t, step (shortState 0x45) = .next t ∧ t.run = .faulted (.addressError .operand 256) ∧
      step t = .fault (.faulted (.addressError .operand 256))) :=
  ⟨⟨_, rfl, rfl, rfl⟩, _, rfl, rfl, rfl⟩
/-- Every row of the pc law, at the highest address the row fits (LDI, ADD, SUB, MLT at 253; PUSH, POP, PRN at 254; CALL
at 253; HALT and RET at 255). -/
theorem witness_ProgramCounterLaw :
    ([(haltState, Opcode.halt), (retState, .ret), (pushState, .push), (prnState, .prn), (callState, .call),
      (stateAt 254 (regs 0 0 254) [(254, 0x46)], .pop), (stateAt 253 (regs 0 0 255) [(253, 0x82)], .ldi),
      (stateAt 253 (regs 0 0 255) [(253, 0xA0)], .add), (stateAt 253 (regs 0 0 255) [(253, 0xA1)], .sub),
      (stateAt 253 (regs 0 0 255) [(253, 0xA2)], .mlt)] : List (State × Opcode)).all
      (fun p => ((after p.1).map (fun t => t.run == .running || t.run == .halted)).getD false &&
        Opcode.ofByte p.1.opcodeByte == some p.2) = true := by decide
theorem witness_ResetLeaves : (6 : RegIndex).val < 7 := by decide
theorem witness_PrnTextIsDecimalLine : 5 ∈ decimalDigits 255 ∧ renderLine 0 = [0x30, 0x0A] := by decide
theorem witness_LoaderPutsProgramAtZero :
    (∃ p : List Byte, 256 < p.length) ∧ ∃ p : List Byte, p.length = 256 := by
  have len : ∀ n, (List.replicate n (1 : Byte)).length = n := fun n => List.length_replicate
  exact ⟨⟨List.replicate 257 1, by rw [len]; omega⟩, List.replicate 256 1, len _⟩
theorem witness_StatusCodesAndExitStatus :
    (Cause.addressError .fetch 256).code ≠ 1 ∧ (Cause.registerIndexError 8).code ≠ 1 ∧
    Cause.unsupportedOperation.code ≠ 1 := by decide
theorem witness_MemoryAccessIsChecked : 255 ≤ 255 ∧ 255 < 256 := by decide
theorem witness_RegisterWritesAreMasked : (6 : RegIndex) ≠ 7 := by decide
theorem witness_AluResultsAreModulo256 : (0 : Byte).toNat < (255 : Byte).toNat := by decide
theorem witness_AluRingLaws : (255 : Byte) ≠ 0 := by decide
theorem witness_LdiLoadsTheImmediate :
    (7 : Byte).toNat < 8 ∧ 8 ≤ (8 : Byte).toNat ∧ (stateAt 253 (regs 0 0 255) []).pc.toNat ≤ 253 ∧
    (shortState₂ 0x82).opcodeByte = 0x82 ∧ (shortState₂ 0x82).pc.toNat = 254 ∧
    (shortState 0x82).opcodeByte = 0x82 ∧ (shortState 0x82).pc.toNat = 255 := by decide
theorem witness_PrnEmitsTheRegister :
    (7 : Byte).toNat < 8 ∧ 8 ≤ (8 : Byte).toNat ∧ prnState.pc.toNat ≤ 254 ∧ (shortState 0x47).run = .running ∧
    (shortState 0x47).opcodeByte = 0x47 ∧ (shortState 0x47).pc.toNat = 255 := by decide
theorem witness_AddWritesTheSum :
    (7 : Byte).toNat < 8 ∧ 8 ≤ (8 : Byte).toNat ∧ (shortState₂ 0xA0).opcodeByte = 0xA0 ∧
    (shortState₂ 0xA0).pc.toNat = 254 ∧ (shortState 0xA0).opcodeByte = 0xA0 ∧
    (shortState 0xA0).run = .running := by decide
theorem witness_SubWritesTheDifference :
    (7 : Byte).toNat < 8 ∧ 8 ≤ (8 : Byte).toNat ∧ (shortState₂ 0xA1).opcodeByte = 0xA1 ∧
    (shortState₂ 0xA1).pc.toNat = 254 ∧ (shortState 0xA1).opcodeByte = 0xA1 ∧
    (shortState 0xA1).run = .running := by decide
theorem witness_MltWritesTheLowProduct :
    (7 : Byte).toNat < 8 ∧ 8 ≤ (8 : Byte).toNat ∧ (shortState₂ 0xA2).opcodeByte = 0xA2 ∧
    (shortState₂ 0xA2).pc.toNat = 254 ∧ (shortState 0xA2).opcodeByte = 0xA2 ∧
    (shortState 0xA2).run = .running := by decide
theorem witness_ArithmeticReadsBeforeItWrites : (7 : Byte).toNat < 8 := by decide
theorem witness_PushStoresBelowTheStackPointer :
    (0 : Byte).toNat < 8 ∧ pushState.sp ≠ 0 ∧ pushState.pc.toNat ≤ 254 ∧ 8 ≤ (8 : Byte).toNat ∧
    (stateAt 0 (regs 0 0 0) []).sp = 0 ∧ (shortState 0x45).run = .running ∧
    (shortState 0x45).opcodeByte = 0x45 ∧ (shortState 0x45).pc.toNat = 255 := by decide
theorem witness_PopLoadsFromTheStackPointer :
    (0 : Byte).toNat ≠ 7 ∧ (7 : Byte).toNat = 7 ∧ retState.sp ≠ 255 ∧ 8 ≤ (8 : Byte).toNat ∧
    (shortState 0x46).sp = 255 ∧ (shortState 0x46).run = .running ∧
    (shortState 0x46).opcodeByte = 0x46 ∧ (shortState 0x46).pc.toNat = 255 := by decide
theorem witness_CallPushesAndJumps :
    (7 : Byte).toNat < 8 ∧ callState.pc.toNat ≤ 253 ∧ callState.sp ≠ 0 ∧ 8 ≤ (8 : Byte).toNat ∧
    253 < (shortState₂ 0x50).pc.toNat ∧ (stateAt 253 (regs 0 0 0) []).sp = 0 ∧
    (stateAt 253 (regs 0 0 0) []).pc.toNat ≤ 253 ∧ (shortState 0x50).run = .running ∧
    (shortState 0x50).opcodeByte = 0x50 ∧ (shortState 0x50).pc.toNat = 255 := by decide
theorem witness_RetPopsTheProgramCounter : retState.sp ≠ 255 ∧ haltState.sp = 255 := by decide
theorem witness_WrapAlternativeStepsModulo256 :
    (7 : Byte).toNat < 8 ∧ (0 : Byte).toNat ≠ 7 ∧ (stateAt 253 (regs 0 0 0) []).sp = 0 ∧
    (stateAt 253 (regs 0 0 0) []).pc.toNat ≤ 253 ∧ haltState.sp = 255 ∧
    (∃ t, popEffect .wrap 7 haltState = .ok t ∧ t.sp = 2) ∧
    pushEffect .wrap 8 haltState = .error (.registerIndexError 8) := by
  refine ⟨by decide, by decide, by decide, by decide, by decide, ⟨_, rfl, by decide⟩, rfl⟩
/-- RegistersOutsideTheTableAreKept, NonStoringInstructionsKeepMemory, StoringInstructionsKeepOtherCells and
RunStateChangesOnlyByHaltOrFault: an instruction that goes on and one that faults answer a next state. -/
theorem witness_frames :
    (∃ t, exec (.pop 0) retState = .next t ∧ t.run = .running) ∧ (∃ t, exec (.push 0) pushState = .next t ∧ t.run = .running) ∧
    (∃ t, exec (.call 0) callState = .next t ∧ t.run = .running) ∧ (∃ t, exec .halt haltState = .next t ∧ t.run = .halted) ∧
    (∃ t, exec (.ldi 8 0) haltState = .next t ∧ t.run = .faulted (.registerIndexError 8)) ∧
    (∀ op1, Instr.pop 0 ≠ .push op1 ∧ Instr.pop 0 ≠ .call op1) :=
  ⟨⟨_, rfl, rfl⟩, ⟨_, rfl, rfl⟩, ⟨_, rfl, rfl⟩, ⟨_, rfl, rfl⟩, ⟨_, rfl, rfl⟩, fun _ => ⟨Instr.noConfusion, Instr.noConfusion⟩⟩
/-- Two states that agree on what PUSH R0 reads and differ in register 1. -/
theorem witness_OnlyTableRegistersAreRead :
    (∃ t, exec (.push 0) (stateAt 0 (regs 5 1 9) []) = .next t ∧ t.run = .running) ∧
    (stateAt 0 (regs 5 0 9) []).pc = (stateAt 0 (regs 5 1 9) []).pc ∧
    (stateAt 0 (regs 5 0 9) []).readReg 1 ≠ (stateAt 0 (regs 5 1 9) []).readReg 1 ∧
    (∀ r : RegIndex, r.val ∈ (Instr.push 0).readRegisters →
      (stateAt 0 (regs 5 0 9) []).readReg r = (stateAt 0 (regs 5 1 9) []).readReg r) :=
  ⟨⟨_, rfl, rfl⟩, by decide⟩
theorem witness_OutputGrowsOnlyByPrn :
    (∃ t, step prnState = .next t ∧ prnState.opcodeByte = 0x47 ∧ t.run = .running) ∧
    (∃ t, step pushState = .next t ∧ pushState.opcodeByte ≠ 0x47) ∧
    (∃ t, step (shortState 0x47) = .next t ∧ t.run = .faulted (.addressError .operand 256)) :=
  ⟨⟨_, rfl, rfl, rfl⟩, ⟨_, rfl, by decide⟩, _, rfl, rfl⟩
theorem witness_MemoryChangesOnlyByPushOrCall :
    (∃ t, step pushState = .next t ∧ t.mem.readByte 0 ≠ pushState.mem.readByte 0) ∧
    (∃ t, step callState = .next t ∧ t.mem.readByte 254 ≠ callState.mem.readByte 254) :=
  ⟨⟨_, rfl, by decide⟩, _, rfl, by decide⟩
theorem witness_FaultsArePrecise :
    ∃ t, step (shortState 0x46) = .next t ∧ t.run = .faulted (.addressError .operand 256) := ⟨_, rfl, rfl⟩
theorem witness_FirstBadIndexIsReported :
    (Instr.add 7 8).registerOperands.find? (fun k => 7 < k.toNat) = some 8 ∧
    ∃ t, exec (.add 7 8) haltState = .next t ∧ t.run = .faulted (.registerIndexError 8) :=
  ⟨by decide, _, rfl, rfl⟩
/-- FaultPriorityOrder: a state for each branch, in order: fetch, unknown, operand, op1, op2, return address, SP at 0, SP at
255, HALT, and no fault. -/
theorem witness_FaultPriorityOrder :
    ([stateAt 256 (regs 0 0 255) [], shortState 0x83, shortState 0x46, stateAt 0 (regs 0 0 0) [(0, 0x45), (1, 0x08)],
      stateAt 0 (regs 0 0 0) [(0, 0xA0), (2, 0x08)], stateAt 254 (regs 0 0 0) [(254, 0x50)],
      stateAt 253 (regs 0 0 0) [(253, 0x50)], stateAt 0 (regs 0 0 255) [(0, 0x46)], haltState, pushState]).map
      (fun s => (after s).map (fun t => t.run)) =
    [some (.faulted (.addressError .fetch 256)), some (.faulted (.unknownOpcode 0x83)),
      some (.faulted (.addressError .operand 256)), some (.faulted (.registerIndexError 8)),
      some (.faulted (.registerIndexError 8)), some (.faulted (.addressError .returnAddress 256)),
      some (.faulted (.addressError .stackPointer (-1))), some (.faulted (.addressError .stackPointer 256)),
      some .halted, some .running] := by decide
theorem witness_ResetMeetsTheInvariant : Memory.wf [(0, 1), (255, 1)] := by decide
theorem pushState_inv : pushState.Inv := ⟨by decide, by decide, trivial⟩
theorem witness_EveryStepKeepsTheInvariant : pushState.Inv ∧ ∃ t, step pushState = .next t := ⟨pushState_inv, _, rfl⟩
theorem witness_NoRunRecordsAnUnsupportedOperation :
    (shortState 0x46).Inv ∧ ∃ t, StepsTo 1 (shortState 0x46) t ∧ t.run = .faulted (.addressError .operand 256) :=
  ⟨⟨by decide, by decide, trivial⟩, _, ⟨_, rfl, rfl⟩, rfl⟩
theorem witness_RunsEndInOneWay :
    (∃ t, EndsWell haltState t) ∧ ∃ t, EndsBadly (shortState 0x46) t :=
  ⟨⟨_, 1, ⟨_, rfl, rfl⟩, rfl⟩, _, 1, _, ⟨_, rfl, rfl⟩, rfl⟩
theorem witness_PushThenPopRestores :
    (0 : Byte).toNat < 8 ∧ pairState.run = .running ∧ pairState.sp ≠ 0 ∧ pairState.pc.toNat + 3 ≤ 255 ∧
    pairState.opcodeByte = 0x45 ∧ pairState.operandByte = 0 ∧
    pairState.mem.readByte (pairState.pc.toNat + 2) = 0x46 ∧ pairState.mem.readByte (pairState.pc.toNat + 3) = 0 ∧
    pairState.sp.toNat - 1 ≠ pairState.pc.toNat + 2 ∧ pairState.sp.toNat - 1 ≠ pairState.pc.toNat + 3 := by decide
/-- CALL at 253 to 9, and a later state at 9 with RET there and the stack as on entry. -/
theorem witness_RetResumesAfterItsCall :
    let s := stateAt 253 (regs 9 0 255) [(9, 0x11), (253, 0x50)]
    s.run = .running ∧ s.opcodeByte = 0x50 ∧ s.operandByte = 0 ∧
    ∃ t, step s = .next t ∧ t.run = .running ∧ t.pc.toNat ≤ 255 ∧ t.opcodeByte = 0x11 ∧
      t.mem.readByte t.sp.toNat = 255 :=
  ⟨rfl, rfl, rfl, _, rfl, rfl, by decide, rfl, rfl⟩
/-- P6 in small: a PUSH that writes the byte fetched next; and a CALL to the cell it writes. -/
theorem witness_NextFetchSeesTheStoredByte :
    (∃ t, step (stateAt 6 (regs 1 0 9) [(6, 0x45)]) = .next t ∧ t.run = .running ∧ t.sp.toNat = t.pc.toNat) ∧
    (∃ t, step (stateAt 6 (regs 0 0 9) [(6, 0x50), (7, 0x07)]) = .next t ∧ t.run = .running ∧
      t.sp.toNat = t.pc.toNat) :=
  ⟨⟨_, rfl, rfl, by decide⟩, _, rfl, rfl, by decide⟩

end Sys2Proof.Tests
end

section
/-! PROOFS. Scope (spec/00_scope.md): every Running state steps (O7), and the alternative SP_BOUNDARY = wrap (O30). -/

namespace Sys2Proof.Machine

open Sys2Proof.Config (spIndex)

/-! Every instruction answers a next state -/

/-- The end of an instruction is a next state, whether its effect succeeded or raised a cause (R7, R116). -/
theorem settle_answers_next (s : State) (r : Except Cause State) : ∃ t, settle s r = .next t := by
  cases r with
  | ok t => exact ⟨t, settle_ok s t⟩
  | error c => exact ⟨_, settle_error s c⟩

/-- No instruction and no operand leaves the machine without a next state (R7, R138). -/
theorem exec_answers_next (i : Instr) (s : State) : ∃ t, exec i s = .next t := by
  cases i with
  | halt => exact ⟨_, rfl⟩
  | ldi | push | pop | call | ret | prn | add | sub | mlt => exact settle_answers_next s _

/-- Settles O7, from what a step can do: only a Running state reaches fault entry or an instruction's meaning, and
both answer a next state. -/
theorem exactlyRunningStatesStep : Obligations.ExactlyRunningStatesStep := by
  intro s
  rcases step_cases s with ⟨hr, hs⟩ | ⟨c, hr, hs⟩ | ⟨hr, c, -, hs⟩ | ⟨hr, i, -, hs⟩
  · simp [hr, hs]
  · simp [hr, hs]
  · simp [hr, hs]
  · simpa [hr, hs] using exec_answers_next i s

/-! The stack pointer at the boundary -/

/-- From SP = 0 the decrement leaves SP = 255. -/
theorem decSp_sp_of_zero {s : State} (hsp : s.sp = 0) : s.decSp.sp = 255 := by
  rw [decSp_sp, hsp]; decide

theorem decSp_stackAddress_of_zero {s : State} (hsp : s.sp = 0) : s.decSp.stackAddress = 255 := by
  rw [State.stackAddress, decSp_sp_of_zero hsp]; rfl

theorem stackAddress_of_top {s : State} (hsp : s.sp = 255) : s.stackAddress = 255 := by
  rw [State.stackAddress, hsp]; rfl

/-- From SP = 255 the increment leaves SP = 0. -/
theorem incSp_sp_of_top {s : State} (hsp : s.sp = 255) : s.incSp.sp = 0 := by
  rw [incSp_sp, hsp]; decide

/-- What an instruction that reads its register operand after the decrement finds there: register 7 has already
moved (decision D13). -/
theorem decSp_readReg_operand (s : State) {op1 : Byte} (h : op1.toNat < 8) :
    s.decSp.readReg ⟨op1.toNat, h⟩ = if op1.toNat = 7 then s.decSp.sp else s.readReg ⟨op1.toNat, h⟩ := by
  split
  · next h7 => rw [State.sp]; congr 1; exact Fin.ext h7
  · next h7 => exact decSp_readReg_ne s (fun e => h7 (congrArg Fin.val e))

theorem writeReg_sp (s : State) (v : Int) : (s.writeReg spIndex v).sp = BitVec.ofInt 8 v :=
  readReg_writeReg_same s spIndex v

theorem writeReg_sp_of_ne (s : State) {i : RegIndex} (v : Int) (h : i ≠ spIndex) :
    (s.writeReg i v).sp = s.sp :=
  readReg_writeReg_ne s v h.symm

/-! The effects of PUSH, CALL, POP and RET where SP_BOUNDARY is wrap -/

/-- With wrap, PUSH completes from every SP (R4, decision D10). -/
theorem pushEffect_wrap_ok (s : State) {op1 : Byte} (h : op1.toNat < 8) :
    pushEffect .wrap op1 s = .ok (State.advance { s.decSp with
      mem := s.mem.writeByte s.decSp.stackAddress (s.decSp.readReg ⟨op1.toNat, h⟩) } 1) := by
  rcases pushEffect_cases .wrap op1 s with ⟨_, -, he⟩ | ⟨h8, -⟩ | ⟨-, -, hb, -⟩
  · exact he
  · omega
  · cases hb

/-- With wrap, CALL completes from every SP where its return address is a byte (R4, decision D10). -/
theorem callEffect_wrap_ok (s : State) {op1 : Byte} (h : op1.toNat < 8) (hpc : s.returnAddress ≤ 255) :
    callEffect .wrap op1 s = .ok (State.jump { s.decSp with
      mem := s.mem.writeByte s.decSp.stackAddress (BitVec.ofNat 8 s.returnAddress) }
        (s.decSp.readReg ⟨op1.toNat, h⟩)) := by
  rcases callEffect_cases .wrap op1 s with ⟨_, -, -, he⟩ | ⟨h8, -⟩ | ⟨-, hpc', -⟩ | ⟨-, -, -, hb, -⟩
  · exact he
  · omega
  · omega
  · cases hb

/-- With wrap, POP completes from every SP (R4, decision D9). -/
theorem popEffect_wrap_ok (s : State) {op1 : Byte} (h : op1.toNat < 8) :
    popEffect .wrap op1 s =
      .ok ((s.writeReg ⟨op1.toNat, h⟩ (s.mem.readByte s.stackAddress).toNat).incSp.advance 1) := by
  rcases popEffect_cases .wrap op1 s with ⟨_, -, he⟩ | ⟨h8, -⟩ | ⟨-, -, hb, -⟩
  · exact he
  · omega
  · cases hb

/-- With wrap, RET completes from every state (R4, decision D9). -/
theorem retEffect_wrap_ok (s : State) :
    retEffect .wrap s = .ok (s.jump (s.mem.readByte s.stackAddress)).incSp := by
  rcases retEffect_cases .wrap s with ⟨-, he⟩ | ⟨-, hb, -⟩
  · exact he
  · cases hb

/-- With wrap, all that PUSH can raise is a bad register index. -/
theorem pushEffect_wrap_error {s : State} {op1 : Byte} {c : Cause} (he : pushEffect .wrap op1 s = .error c) :
    c = .registerIndexError op1 := by
  rcases pushEffect_cases .wrap op1 s with ⟨_, -, hr⟩ | ⟨-, hr⟩ | ⟨-, -, hb, -⟩
  · cases hr.symm.trans he
  · cases hr.symm.trans he; rfl
  · cases hb

/-- With wrap, all that POP can raise is a bad register index. -/
theorem popEffect_wrap_error {s : State} {op1 : Byte} {c : Cause} (he : popEffect .wrap op1 s = .error c) :
    c = .registerIndexError op1 := by
  rcases popEffect_cases .wrap op1 s with ⟨_, -, hr⟩ | ⟨-, hr⟩ | ⟨-, -, hb, -⟩
  · cases hr.symm.trans he
  · cases hr.symm.trans he; rfl
  · cases hb

/-- With wrap, all that CALL can raise is a bad register index or a return address that is no byte. -/
theorem callEffect_wrap_error {s : State} {op1 : Byte} {c : Cause} (he : callEffect .wrap op1 s = .error c) :
    c = .registerIndexError op1 ∨ c = .addressError .returnAddress s.returnAddress := by
  rcases callEffect_cases .wrap op1 s with ⟨_, -, -, hr⟩ | ⟨-, hr⟩ | ⟨-, -, hr⟩ | ⟨-, -, -, hb, -⟩
  · cases hr.symm.trans he
  · cases hr.symm.trans he; exact .inl rfl
  · cases hr.symm.trans he; exact .inr rfl
  · cases hb

/-! The wrapping steps -/

/-- With wrap, PUSH at SP = 0 stores to cell 255 and leaves SP = 255; PUSH R7 stores the decremented SP. -/
theorem pushEffect_wrap_of_zero {s : State} {op1 : Byte} (h : op1.toNat < 8) (hsp : s.sp = 0) :
    ∃ t, pushEffect .wrap op1 s = .ok t ∧ t.sp = 255 ∧
      t.mem.readByte 255 = (if op1.toNat = 7 then 255 else s.readReg ⟨op1.toNat, h⟩) ∧
      SameMemoryExcept 255 s t := by
  have hsp' := decSp_sp_of_zero hsp
  have ha := decSp_stackAddress_of_zero hsp
  refine ⟨_, pushEffect_wrap_ok s h, hsp', ?_, fun b hb => ?_⟩
  · simp [ha, decSp_readReg_operand, hsp']
  · simpa [ha] using readByte_writeByte_ne s.mem _ hb

/-- With wrap, CALL at SP = 0 stores the return address to cell 255, leaves SP = 255 and jumps; CALL R7 jumps to the
decremented SP. -/
theorem callEffect_wrap_of_zero {s : State} {op1 : Byte} (h : op1.toNat < 8) (hsp : s.sp = 0)
    (hpc : s.pc.toNat ≤ 253) :
    ∃ t, callEffect .wrap op1 s = .ok t ∧ t.sp = 255 ∧
      (t.mem.readByte 255).toNat = s.pc.toNat + 2 ∧ SameMemoryExcept 255 s t ∧
      t.pc.toNat = (if op1.toNat = 7 then 255 else (s.readReg ⟨op1.toNat, h⟩).toNat) := by
  have hsp' := decSp_sp_of_zero hsp
  have ha := decSp_stackAddress_of_zero hsp
  have hret : s.returnAddress = s.pc.toNat + 2 := rfl
  refine ⟨_, callEffect_wrap_ok s h (by omega), hsp', ?_, fun b hb => ?_, ?_⟩
  · simp only [jump_mem, ha, readByte_writeByte_same, BitVec.toNat_ofNat, hret]
    omega
  · simpa [ha] using readByte_writeByte_ne s.mem _ hb
  · rw [jump_pc_toNat, decSp_readReg_operand, hsp']
    split <;> rfl

/-- With wrap, POP of another register than R7 at SP = 255 loads it from cell 255 and leaves SP = 0. -/
theorem popEffect_wrap_of_top {s : State} {op1 : Byte} (h : op1.toNat < 8) (hsp : s.sp = 255)
    (h7 : op1.toNat ≠ 7) :
    ∃ t, popEffect .wrap op1 s = .ok t ∧ t.readReg ⟨op1.toNat, h⟩ = s.mem.readByte 255 ∧
      t.sp = 0 ∧ SameMemory s t := by
  have ha := stackAddress_of_top hsp
  have hne : (⟨op1.toNat, h⟩ : RegIndex) ≠ spIndex := fun e => h7 (congrArg Fin.val e)
  refine ⟨_, popEffect_wrap_ok s h, ?_, ?_, fun _ => rfl⟩
  · rw [advance_readReg, incSp_readReg_ne _ hne, readReg_writeReg_same, ofInt_toNat, ha]
  · exact incSp_sp_of_top (by rw [writeReg_sp_of_ne _ _ hne, hsp])

/-- With wrap, POP R7 at SP = 255 leaves in SP the byte of cell 255 plus one, modulo 256 (decision D13). -/
theorem popEffect_wrap_sp_of_top {s : State} {op1 : Byte} (h : op1.toNat < 8) (hsp : s.sp = 255)
    (h7 : op1.toNat = 7) :
    ∃ t, popEffect .wrap op1 s = .ok t ∧ t.sp.toNat = ((s.mem.readByte 255).toNat + 1) % 256 ∧
      SameRegistersExcept [7] s t ∧ SameMemory s t := by
  have ha := stackAddress_of_top hsp
  have hd : (⟨op1.toNat, h⟩ : RegIndex) = spIndex := Fin.ext h7
  refine ⟨_, popEffect_wrap_ok s h, ?_, fun r hr => ?_, fun _ => rfl⟩
  · rw [advance_sp, incSp_sp, hd, writeReg_sp, ofInt_toNat, ha, BitVec.toNat_add]
    rfl
  · have hne : r ≠ spIndex := fun e => hr (by simp [e])
    rw [advance_readReg, incSp_readReg_ne _ hne, hd, readReg_writeReg_ne _ _ hne]

/-- With wrap, RET at SP = 255 takes pc from cell 255 and leaves SP = 0. -/
theorem retEffect_wrap_of_top {s : State} (hsp : s.sp = 255) :
    ∃ t, retEffect .wrap s = .ok t ∧ t.pc.toNat = (s.mem.readByte 255).toNat ∧ t.sp = 0 ∧ SameMemory s t := by
  have ha := stackAddress_of_top hsp
  refine ⟨_, retEffect_wrap_ok s, ?_, incSp_sp_of_top hsp, fun _ => rfl⟩
  rw [incSp_pc, jump_pc_toNat, ha]

/-- Settles O30: the wrapping step of each of the four instructions, and that none of their causes with wrap is
AddressError(stack_pointer). -/
theorem wrapAlternativeStepsModulo256 : Obligations.WrapAlternativeStepsModulo256 := by
  refine ⟨fun s op1 h hsp => ?_, fun s op1 h hsp => ?_, fun s op1 c he v => ?_⟩
  · exact ⟨pushEffect_wrap_of_zero h hsp, callEffect_wrap_of_zero h hsp⟩
  · exact ⟨popEffect_wrap_of_top h hsp, popEffect_wrap_sp_of_top h hsp, retEffect_wrap_of_top hsp⟩
  · rcases he with he | he | he | he
    · simp [pushEffect_wrap_error he]
    · simp [popEffect_wrap_error he]
    · rcases callEffect_wrap_error he with rfl | rfl <;> simp
    · cases (retEffect_wrap_ok s).symm.trans he

end Sys2Proof.Machine
end

section
/-! PROOFS. Which state an instruction leaves where it completes, and which cause it raises where it does not
(spec/40_step_cycle.md R74, R78): two relations that together are `exec`. Every statement about all instructions below
is a case analysis of them. -/

namespace Sys2Proof

/-- The first register operand above 7, in operand order (R14, R74). -/
def Instr.badIndex? (i : Instr) : Option Byte := i.registerOperands.find? (fun k => 7 < k.toNat)

/-- With one register operand, that operand is the bad index or there is none. -/
theorem badIndex?_of_one {i : Instr} {a k : Byte} (hi : i.registerOperands = [a]) :
    i.badIndex? = some k ↔ 8 ≤ a.toNat ∧ a = k := by
  by_cases ha : 7 < a.toNat <;> simp [Instr.badIndex?, hi, ha, Nat.succ_le_iff]

/-- With two register operands, the first is looked at first. -/
theorem badIndex?_of_two {i : Instr} {a b k : Byte} (hi : i.registerOperands = [a, b]) :
    i.badIndex? = some k ↔ (8 ≤ a.toNat ∧ a = k) ∨ (a.toNat < 8 ∧ 8 ≤ b.toNat ∧ b = k) := by
  by_cases ha : 7 < a.toNat
  · simp [Instr.badIndex?, hi, ha, Nat.succ_le_iff, Nat.not_lt.mpr ha]
  · have ha' : a.toNat < 8 := by omega
    by_cases hb : 7 < b.toNat <;> simp [Instr.badIndex?, hi, ha, ha', hb, Nat.succ_le_iff]

/-- A bad index is an index above 7. -/
theorem le_of_badIndex? {i : Instr} {k : Byte} (h : i.badIndex? = some k) : 8 ≤ k.toNat := by
  have hk := List.find?_some h
  simp only [decide_eq_true_eq] at hk
  exact hk

/-- Without a bad index every register operand is an index. -/
theorem lt_of_badIndex?_eq_none {i : Instr} {k : Byte} (h : i.badIndex? = none) (hk : k ∈ i.registerOperands) :
    k.toNat < 8 := by
  have := List.find?_eq_none.mp h k hk
  simp only [decide_eq_true_eq] at this
  omega

/-- Only an ill-formed instruction has a bad index. -/
theorem wellFormed_of_badIndex? {i : Instr} {k : Byte} (h : i.badIndex? = some k) : i.wellFormed = false :=
  List.all_eq_false.mpr ⟨k, List.mem_of_find?_eq_some h, by simpa using le_of_badIndex? h⟩

end Sys2Proof

namespace Sys2Proof.Machine

/-- The effect of an instruction, before `settle` turns a cause into fault entry. -/
def instrEffect : Instr → State → Except Cause State
  | .halt, s => .ok { s with run := .halted }
  | .ldi op1 op2, s => ldiEffect op1 op2 s
  | .push op1, s => pushEffect Config.spBoundary op1 s
  | .pop op1, s => popEffect Config.spBoundary op1 s
  | .call op1, s => callEffect Config.spBoundary op1 s
  | .ret, s => retEffect Config.spBoundary s
  | .prn op1, s => prnEffect op1 s
  | .add op1 op2, s => arithEffect .add op1 op2 s
  | .sub op1 op2, s => arithEffect .sub op1 op2 s
  | .mlt op1 op2, s => arithEffect .mul op1 op2 s

theorem exec_eq_settle (i : Instr) (s : State) : exec i s = settle s (instrEffect i s) := by
  cases i <;> rfl

/-- `Completes i s t`: `i` raises no cause in `s` and leaves `t` (the Effect part of R80 to R103). -/
inductive Completes : Instr → State → State → Prop
  | halt {s} : Completes .halt s { s with run := .halted }
  | ldi {s op1 op2} (h : op1.toNat < 8) :
      Completes (.ldi op1 op2) s ((s.writeReg ⟨op1.toNat, h⟩ op2.toNat).advance 2)
  | push {s op1} (h : op1.toNat < 8) (hsp : s.sp ≠ 0) :
      Completes (.push op1) s (State.advance { s.decSp with
        mem := s.mem.writeByte s.decSp.stackAddress (s.decSp.readReg ⟨op1.toNat, h⟩) } 1)
  | pop {s op1} (h : op1.toNat < 8) (hsp : s.sp ≠ 255) :
      Completes (.pop op1) s
        ((s.writeReg ⟨op1.toNat, h⟩ (s.mem.readByte s.stackAddress).toNat).incSp.advance 1)
  | call {s op1} (h : op1.toNat < 8) (ha : s.returnAddress ≤ 255) (hsp : s.sp ≠ 0) :
      Completes (.call op1) s (State.jump { s.decSp with
        mem := s.mem.writeByte s.decSp.stackAddress (BitVec.ofNat 8 s.returnAddress) }
          (s.decSp.readReg ⟨op1.toNat, h⟩))
  | ret {s} (hsp : s.sp ≠ 255) : Completes .ret s (s.jump (s.mem.readByte s.stackAddress)).incSp
  | prn {s op1} (h : op1.toNat < 8) :
      Completes (.prn op1) s ((s.emit (s.readReg ⟨op1.toNat, h⟩)).advance 1)
  | add {s op1 op2} (h1 : op1.toNat < 8) (h2 : op2.toNat < 8) :
      Completes (.add op1 op2) s ((s.writeReg ⟨op1.toNat, h1⟩
        (alu .add (s.readReg ⟨op1.toNat, h1⟩) (s.readReg ⟨op2.toNat, h2⟩)).toNat).advance 2)
  | sub {s op1 op2} (h1 : op1.toNat < 8) (h2 : op2.toNat < 8) :
      Completes (.sub op1 op2) s ((s.writeReg ⟨op1.toNat, h1⟩
        (alu .sub (s.readReg ⟨op1.toNat, h1⟩) (s.readReg ⟨op2.toNat, h2⟩)).toNat).advance 2)
  | mlt {s op1 op2} (h1 : op1.toNat < 8) (h2 : op2.toNat < 8) :
      Completes (.mlt op1 op2) s ((s.writeReg ⟨op1.toNat, h1⟩
        (alu .mul (s.readReg ⟨op1.toNat, h1⟩) (s.readReg ⟨op2.toNat, h2⟩)).toNat).advance 2)

/-- `FaultsWith i s c`: run in `s`, `i` raises `c`. These are the checks of R78 from the register indices on, each where
the checks before it passed. -/
inductive FaultsWith : Instr → State → Cause → Prop
  | badIndex {i s k} (hk : i.badIndex? = some k) : FaultsWith i s (.registerIndexError k)
  | returnAddress {s op1} (h : op1.toNat < 8) (ha : 255 < s.returnAddress) :
      FaultsWith (.call op1) s (.addressError .returnAddress s.returnAddress)
  | push {s op1} (h : op1.toNat < 8) (hsp : s.sp = 0) :
      FaultsWith (.push op1) s (.addressError .stackPointer (-1))
  | call {s op1} (h : op1.toNat < 8) (ha : s.returnAddress ≤ 255) (hsp : s.sp = 0) :
      FaultsWith (.call op1) s (.addressError .stackPointer (-1))
  | pop {s op1} (h : op1.toNat < 8) (hsp : s.sp = 255) :
      FaultsWith (.pop op1) s (.addressError .stackPointer 256)
  | ret {s} (hsp : s.sp = 255) : FaultsWith .ret s (.addressError .stackPointer 256)

/-! The two relations are exec -/

/-- Where an instruction completes, that state is its effect. -/
theorem instrEffect_of_completes {i : Instr} {s t : State} (h : Completes i s t) : instrEffect i s = .ok t := by
  cases h with
  | halt => rfl
  | ldi h =>
    rcases ldiEffect_cases _ _ s with ⟨_, he⟩ | ⟨h8, -⟩
    · exact he
    · omega
  | push h hsp =>
    rcases pushEffect_cases .fault _ s with ⟨_, -, he⟩ | ⟨h8, -⟩ | ⟨-, h0, -⟩
    · exact he
    · omega
    · exact absurd h0 hsp
  | pop h hsp =>
    rcases popEffect_cases .fault _ s with ⟨_, -, he⟩ | ⟨h8, -⟩ | ⟨-, h0, -⟩
    · exact he
    · omega
    · exact absurd h0 hsp
  | call h ha hsp =>
    rcases callEffect_cases .fault _ s with ⟨_, -, -, he⟩ | ⟨h8, -⟩ | ⟨-, ha', -⟩ | ⟨-, -, h0, -⟩
    · exact he
    · omega
    · omega
    · exact absurd h0 hsp
  | ret hsp =>
    rcases retEffect_cases .fault s with ⟨-, he⟩ | ⟨h0, -⟩
    · exact he
    · exact absurd h0 hsp
  | prn h =>
    rcases prnEffect_cases _ s with ⟨_, he⟩ | ⟨h8, -⟩
    · exact he
    · omega
  | add h1 h2 | sub h1 h2 | mlt h1 h2 =>
    rcases arithEffect_cases _ _ _ s with ⟨_, _, he⟩ | ⟨h8, -⟩ | ⟨-, h8, -⟩
    · exact he
    · omega
    · omega

/-- A bad index is raised before anything else is checked, `op1` before `op2`. -/
theorem instrEffect_of_badIndex? {i : Instr} {k : Byte} (hk : i.badIndex? = some k) (s : State) :
    instrEffect i s = .error (.registerIndexError k) := by
  cases i with
  | halt | ret => cases hk
  | ldi op1 | push op1 | pop op1 | call op1 | prn op1 =>
    obtain ⟨h8, rfl⟩ := (badIndex?_of_one rfl).mp hk
    simp [instrEffect, ldiEffect, pushEffect, popEffect, callEffect, prnEffect, reg_error h8, bind, Except.bind]
  | add op1 op2 | sub op1 op2 | mlt op1 op2 =>
    rcases (badIndex?_of_two rfl).mp hk with ⟨h8, rfl⟩ | ⟨h1, h8, rfl⟩
    · simp [instrEffect, arithEffect, reg_error h8, bind, Except.bind]
    · simp [instrEffect, arithEffect, reg_ok h1, reg_error h8, bind, Except.bind]

/-- Where an instruction raises a cause, that cause is its effect. -/
theorem instrEffect_of_faultsWith {i : Instr} {s : State} {c : Cause} (h : FaultsWith i s c) :
    instrEffect i s = .error c := by
  cases h with
  | badIndex hk => exact instrEffect_of_badIndex? hk s
  | @returnAddress _ op1 h ha =>
    rcases callEffect_cases .fault op1 s with ⟨_, ha', -⟩ | ⟨h8, -⟩ | ⟨-, -, he⟩ | ⟨-, ha', -⟩
    · omega
    · omega
    · exact he
    · omega
  | @push _ op1 h hsp =>
    rcases pushEffect_cases .fault op1 s with ⟨_, hb, -⟩ | ⟨h8, -⟩ | ⟨-, -, -, he⟩
    · rw [hsp] at hb; cases hb
    · omega
    · exact he
  | @call _ op1 h ha hsp =>
    rcases callEffect_cases .fault op1 s with ⟨_, -, hb, -⟩ | ⟨h8, -⟩ | ⟨-, ha', -⟩ | ⟨-, -, -, -, he⟩
    · rw [hsp] at hb; cases hb
    · omega
    · omega
    · exact he
  | @pop _ op1 h hsp =>
    rcases popEffect_cases .fault op1 s with ⟨_, hb, -⟩ | ⟨h8, -⟩ | ⟨-, -, -, he⟩
    · rw [hsp] at hb; cases hb
    · omega
    · exact he
  | ret hsp =>
    rcases retEffect_cases .fault s with ⟨hb, -⟩ | ⟨-, -, he⟩
    · rw [hsp] at hb; cases hb
    · exact he

/-- Every instruction completes or raises a cause, in every state. -/
theorem completes_or_faultsWith (i : Instr) (s : State) : (∃ t, Completes i s t) ∨ ∃ c, FaultsWith i s c := by
  cases hk : i.badIndex? with
  | some k => exact .inr ⟨_, .badIndex hk⟩
  | none =>
    cases i with
    | halt => exact .inl ⟨_, .halt⟩
    | ldi op1 => exact .inl ⟨_, .ldi (lt_of_badIndex?_eq_none hk (.head _))⟩
    | prn op1 => exact .inl ⟨_, .prn (lt_of_badIndex?_eq_none hk (.head _))⟩
    | push op1 =>
      have h : op1.toNat < 8 := lt_of_badIndex?_eq_none hk (.head _)
      by_cases hsp : s.sp = 0
      · exact .inr ⟨_, .push h hsp⟩
      · exact .inl ⟨_, .push h hsp⟩
    | pop op1 =>
      have h : op1.toNat < 8 := lt_of_badIndex?_eq_none hk (.head _)
      by_cases hsp : s.sp = 255
      · exact .inr ⟨_, .pop h hsp⟩
      · exact .inl ⟨_, .pop h hsp⟩
    | call op1 =>
      have h : op1.toNat < 8 := lt_of_badIndex?_eq_none hk (.head _)
      by_cases ha : s.returnAddress ≤ 255
      · by_cases hsp : s.sp = 0
        · exact .inr ⟨_, .call h ha hsp⟩
        · exact .inl ⟨_, .call h ha hsp⟩
      · exact .inr ⟨_, .returnAddress h (Nat.lt_of_not_le ha)⟩
    | ret =>
      by_cases hsp : s.sp = 255
      · exact .inr ⟨_, .ret hsp⟩
      · exact .inl ⟨_, .ret hsp⟩
    | add op1 op2 | sub op1 op2 | mlt op1 op2 =>
      have h1 : op1.toNat < 8 := lt_of_badIndex?_eq_none hk (.head _)
      have h2 : op2.toNat < 8 := lt_of_badIndex?_eq_none hk (.tail _ (.head _))
      exact .inl ⟨_, by constructor <;> assumption⟩

/-- All that an instruction can do, and that it does each of these (R7, R75, R116). -/
theorem exec_eq_next_iff {i : Instr} {s t : State} :
    exec i s = .next t ↔ Completes i s t ∨ ∃ c, FaultsWith i s c ∧ t = { s with run := .faulted c } := by
  rw [exec_eq_settle]
  constructor
  · intro h
    rcases completes_or_faultsWith i s with ⟨u, hu⟩ | ⟨c, hc⟩
    · rw [instrEffect_of_completes hu, settle_ok] at h
      cases h; exact .inl hu
    · rw [instrEffect_of_faultsWith hc, settle_error] at h
      cases h; exact .inr ⟨c, hc, rfl⟩
  · rintro (h | ⟨c, hc, rfl⟩)
    · rw [instrEffect_of_completes h, settle_ok]
    · rw [instrEffect_of_faultsWith hc, settle_error]

end Sys2Proof.Machine
end

section
/-! PROOFS. What an instruction that completes changes and leaves, field by field, and what its outcome depends on
(spec/10_state.md R11, R16, R18, R19, R20). -/

namespace Sys2Proof.Machine

open Sys2Proof.Config (spIndex)

/-! Registers -/

theorem sameRegistersExcept_writeReg {l : List Nat} {i : RegIndex} (s : State) (v : Int) (hi : i.val ∈ l) :
    SameRegistersExcept l s (s.writeReg i v) :=
  fun _ hr => readReg_writeReg_ne s v (fun e => hr (e ▸ hi))

theorem sameRegistersExcept_incSp {l : List Nat} (s : State) (hl : 7 ∈ l) : SameRegistersExcept l s s.incSp :=
  sameRegistersExcept_writeReg (i := spIndex) s _ hl

theorem SameRegistersExcept.trans {l : List Nat} {s t u : State} (hst : SameRegistersExcept l s t)
    (htu : SameRegistersExcept l t u) : SameRegistersExcept l s u :=
  fun r hr => (htu r hr).trans (hst r hr)

/-- The advance and the jump read the same registers, so the frame of a register write carries over them (R11, R13). -/
theorem Completes.regs {i : Instr} {s t : State} (h : Completes i s t) :
    SameRegistersExcept i.writtenRegisters s t := by
  cases h with
  | halt | prn h => exact fun _ _ => rfl
  | ldi h => exact sameRegistersExcept_writeReg s _ (.head _)
  | push h hsp => exact sameRegistersExcept_writeReg s _ (.head _)
  | call h ha hsp => exact sameRegistersExcept_writeReg s _ (.head _)
  | ret hsp => exact sameRegistersExcept_incSp _ (.head _)
  | @pop _ op1 h hsp =>
    exact .trans (t := s.writeReg ⟨op1.toNat, h⟩ (s.mem.readByte s.stackAddress).toNat)
      (sameRegistersExcept_writeReg s _ (.head _)) (sameRegistersExcept_incSp _ (.tail _ (.head _)))
  | add h1 h2 | sub h1 h2 | mlt h1 h2 => exact sameRegistersExcept_writeReg s _ (.head _)

/-! The run state, the output, the memory -/

/-- The run state changes only by HALT (R18). -/
theorem Completes.run {i : Instr} {s t : State} (h : Completes i s t) :
    t.run = s.run ∨ (i = .halt ∧ t.run = .halted) := by
  cases h with
  | halt => exact .inr ⟨rfl, rfl⟩
  | ldi | push | pop | call | ret | prn | add | sub | mlt => exact .inl rfl

/-- The output changes only by PRN, by one byte (R20). -/
theorem Completes.out {i : Instr} {s t : State} (h : Completes i s t) :
    (∃ (op1 : Byte) (h1 : op1.toNat < 8), i = .prn op1 ∧ t.out = s.out ++ [s.readReg ⟨op1.toNat, h1⟩]) ∨
    (i.opcode ≠ .prn ∧ t.out = s.out) := by
  cases h with
  | prn h => exact .inl ⟨_, h, rfl, rfl⟩
  | halt | ldi | push | pop | call | ret | add | sub | mlt => exact .inr ⟨nofun, rfl⟩

/-- From any SP but 0 the decrement does not wrap (R90, R95). -/
theorem decSp_sp_toNat {s : State} (hsp : s.sp ≠ 0) : s.decSp.sp.toNat + 1 = s.sp.toNat := by
  rw [decSp_sp]
  bv_omega

/-- Memory changes only by PUSH and CALL, at the new SP (R19, R33). -/
theorem Completes.mem {i : Instr} {s t : State} (h : Completes i s t) :
    t.mem = s.mem ∨
    ((∃ op1, i = .push op1 ∨ i = .call op1) ∧ t.sp.toNat + 1 = s.sp.toNat ∧
      ∃ v, t.mem = s.mem.writeByte t.sp.toNat v) := by
  cases h with
  | push h hsp => exact .inr ⟨⟨_, .inl rfl⟩, decSp_sp_toNat hsp, _, rfl⟩
  | call h ha hsp => exact .inr ⟨⟨_, .inr rfl⟩, decSp_sp_toNat hsp, _, rfl⟩
  | halt | ldi | pop | ret | prn | add | sub | mlt => exact .inl rfl

/-- Every instruction keeps the canonical form of memory: a stack write addresses a cell, SP being a byte (R32). -/
theorem Completes.mem_wf {i : Instr} {s t : State} (h : Completes i s t) (hs : s.mem.wf) : t.mem.wf := by
  rcases h.mem with he | ⟨-, -, v, he⟩
  · exact he ▸ hs
  · exact he ▸ writeByte_wf hs t.sp.isLt v

/-! The program counter -/

/-- Where pc goes: HALT leaves it, CALL and RET load a byte, every other instruction moves it past its own bytes
(R16). -/
def nextPc : Instr → State → Nat
  | .halt, s => s.pc.toNat
  | .ret, s => (s.mem.readByte s.sp.toNat).toNat
  | .call op1, s => if h : op1.toNat < 8 then (s.decSp.readReg ⟨op1.toNat, h⟩).toNat else 0
  | .push _, s | .pop _, s | .prn _, s => s.pc.toNat + 2
  | .ldi _ _, s | .add _ _, s | .sub _ _, s | .mlt _ _, s => s.pc.toNat + 3

/-- Where `n` operand bytes lie in memory, the advance past them does not wrap (R76, decision D4). -/
theorem advance_pc_of_fits {s u : State} {n : Nat} (hu : u.pc = s.pc) (hfit : s.pc.toNat + n < 256) :
    (u.advance n).pc.toNat = s.pc.toNat + 1 + n := by
  rw [advance_pc_toNat u (by rw [hu]; omega), hu]

/-- An instruction whose bytes lie in memory moves pc without wrap (R16, decision D4). -/
theorem Completes.pc {i : Instr} {s t : State} (h : Completes i s t)
    (hfit : s.pc.toNat + i.opcode.operandCount < 256) : t.pc.toNat = nextPc i s := by
  cases h with
  | halt => rfl
  | ret hsp => exact jump_pc_toNat s _
  | call h ha hsp => rw [jump_pc_toNat]; simp only [nextPc, dif_pos h]
  | push | pop | prn => exact advance_pc_of_fits rfl hfit
  | ldi | add | sub | mlt => exact advance_pc_of_fits rfl hfit

/-- From a pc in range, pc stays in range (R15). -/
theorem nextPc_le {i : Instr} {s : State} (hpc : s.pc.toNat ≤ 256)
    (hfit : s.pc.toNat + i.opcode.operandCount < 256) : nextPc i s ≤ 256 := by
  have byte_le (b : Byte) : b.toNat ≤ 256 := Nat.le_of_lt b.isLt
  cases i with
  | halt => exact hpc
  | ret => exact byte_le _
  | call op1 =>
    simp only [nextPc]
    split
    · exact byte_le _
    · exact Nat.zero_le _
  | push | pop | prn => exact hfit
  | ldi | add | sub | mlt => exact hfit

/-! The causes -/

/-- A cause that an instruction raises is one the spec's table allows (R112, R113). CALL's return address is 256, since
its operand byte lies in memory (decision D8). -/
theorem FaultsWith.legal {i : Instr} {s : State} {c : Cause} (h : FaultsWith i s c)
    (hfit : s.pc.toNat + i.opcode.operandCount < 256) : c.legal := by
  cases h with
  | badIndex hk => exact le_of_badIndex? hk
  | returnAddress h ha =>
    have hfit : s.pc.toNat + 1 < 256 := hfit
    have ha : 255 < s.pc.toNat + 2 := ha
    show ((s.pc.toNat + 2 : Nat) : Int) = 256
    omega
  | push h hsp => exact .inl rfl
  | call h ha hsp => exact .inl rfl
  | pop h hsp => exact .inr rfl
  | ret hsp => exact .inr rfl

/-! What the outcome depends on -/

/-- The checks of an instruction depend on pc and on no register but SP. -/
theorem FaultsWith.of_sp {i : Instr} {s u : State} {c : Cause} (h : FaultsWith i s c) (hpc : u.pc = s.pc)
    (hsp : 7 ∈ i.readRegisters → u.sp = s.sp) : FaultsWith i u c := by
  have hret : u.returnAddress = s.returnAddress := by rw [State.returnAddress, hpc]; rfl
  cases h with
  | badIndex hk => exact .badIndex hk
  | returnAddress h ha => rw [← hret] at ha ⊢; exact .returnAddress h ha
  | push h h0 => exact .push h ((hsp (.head _)).trans h0)
  | call h ha h0 => exact .call h (hret ▸ ha) ((hsp (.head _)).trans h0)
  | pop h h255 => exact .pop h ((hsp (.head _)).trans h255)
  | ret h255 => exact .ret ((hsp (.head _)).trans h255)

/-- The output is never read back: with another output so far, an instruction appends the same bytes (R20). -/
theorem Completes.append_out {i : Instr} {s t : State} (h : Completes i s t) (o : List Byte) :
    ∃ added, t.out = s.out ++ added ∧ Completes i { s with out := o } { t with out := o ++ added } := by
  cases h with
  | prn h => exact ⟨_, rfl, .prn h⟩
  | halt | ldi | push | pop | call | ret | add | sub | mlt =>
    refine ⟨[], (List.append_nil _).symm, ?_⟩
    rw [List.append_nil]
    constructor <;> assumption

section
variable {s u : State} {r : RegIndex}

theorem regIndex_eq_of_mem {i : RegIndex} (h : r.val ∈ [i.val]) : r = i := Fin.ext (List.mem_singleton.mp h)

theorem readReg_writeReg_congr {i : RegIndex} (v : Int) (h : r ≠ i → u.readReg r = s.readReg r) :
    (u.writeReg i v).readReg r = (s.writeReg i v).readReg r := by
  rw [readReg_writeReg, readReg_writeReg]
  split
  · rfl
  · next hne => exact h (Ne.symm hne)

/-- The one register that ADD, SUB and MLT write, from states that agree on the two they read (R106). -/
theorem writeReg_alu_readReg_congr (o : AluOp) {d e : RegIndex} (hr : r = d) (hd : u.readReg d = s.readReg d)
    (he : u.readReg e = s.readReg e) :
    (u.writeReg d (alu o (u.readReg d) (u.readReg e)).toNat).readReg r =
      (s.writeReg d (alu o (s.readReg d) (s.readReg e)).toNat).readReg r := by
  rw [hd, he]
  exact readReg_writeReg_congr _ (absurd hr)

theorem decSp_readReg_congr (hsp : u.sp = s.sp) (h : r ≠ spIndex → u.readReg r = s.readReg r) :
    u.decSp.readReg r = s.decSp.readReg r := by
  rw [State.decSp, hsp]
  exact readReg_writeReg_congr _ h

theorem incSp_readReg_congr (hsp : u.sp = s.sp) (h : r ≠ spIndex → u.readReg r = s.readReg r) :
    u.incSp.readReg r = s.incSp.readReg r := by
  rw [State.incSp, hsp]
  exact readReg_writeReg_congr _ h

end

/-- An instruction leaves the same in two states that differ only in registers it does not read (R11). -/
theorem Completes.of_readRegisters {i : Instr} {s t : State} {rs : Vector Byte 8} (h : Completes i s t)
    (hread : ∀ r : RegIndex, r.val ∈ i.readRegisters → State.readReg { s with regs := rs } r = s.readReg r) :
    ∃ v, Completes i { s with regs := rs } v ∧ v.pc = t.pc ∧ v.mem = t.mem ∧ v.run = t.run ∧ v.out = t.out ∧
      ∀ r : RegIndex, r.val ∈ i.writtenRegisters → v.readReg r = t.readReg r := by
  cases h with
  | halt => exact ⟨_, .halt, rfl, rfl, rfl, rfl, nofun⟩
  | ldi h =>
    refine ⟨_, .ldi h, rfl, rfl, rfl, rfl, fun r hr => ?_⟩
    exact readReg_writeReg_congr _ (absurd (regIndex_eq_of_mem hr))
  | prn h =>
    refine ⟨_, .prn h, rfl, rfl, rfl, ?_, nofun⟩
    exact congrArg (fun v => s.out ++ [v]) (hread ⟨_, h⟩ (.head _))
  | push h hsp =>
    have hsp' := hread spIndex (.head _)
    have hop := decSp_readReg_congr hsp' fun _ => hread ⟨_, h⟩ (.tail _ (.head _))
    have haddr := congrArg BitVec.toNat (decSp_readReg_congr (r := spIndex) hsp' (absurd rfl))
    refine ⟨_, .push h (hsp'.trans_ne hsp), rfl, congrArg₂ s.mem.writeByte haddr hop, rfl, rfl, fun r hr => ?_⟩
    exact decSp_readReg_congr hsp' (absurd (regIndex_eq_of_mem hr))
  | call h ha hsp =>
    have hsp' := hread spIndex (.head _)
    have hop := decSp_readReg_congr hsp' fun _ => hread ⟨_, h⟩ (.tail _ (.head _))
    have haddr := congrArg BitVec.toNat (decSp_readReg_congr (r := spIndex) hsp' (absurd rfl))
    refine ⟨_, .call h ha (hsp'.trans_ne hsp), congrArg (BitVec.setWidth 9) hop,
      congrArg (s.mem.writeByte · _) haddr, rfl, rfl, fun r hr => ?_⟩
    exact decSp_readReg_congr hsp' (absurd (regIndex_eq_of_mem hr))
  | ret hsp =>
    have hsp' := hread spIndex (.head _)
    have hload := congrArg (fun a : Byte => s.mem.readByte a.toNat) hsp'
    refine ⟨_, .ret (hsp'.trans_ne hsp), congrArg (BitVec.setWidth 9) hload, rfl, rfl, rfl, fun r hr => ?_⟩
    exact incSp_readReg_congr hsp' (absurd (regIndex_eq_of_mem hr))
  | @pop _ op1 h hsp =>
    have hsp' : State.sp { s with regs := rs } = s.sp := hread spIndex (.head _)
    refine ⟨_, .pop h (hsp'.trans_ne hsp), rfl, rfl, rfl, rfl, fun r hr => ?_⟩
    have hr : r = ⟨op1.toNat, h⟩ ∨ r = spIndex := by
      simpa [Instr.writtenRegisters, Fin.ext_iff] using hr
    rw [advance_readReg, advance_readReg, State.stackAddress, State.stackAddress, hsp']
    refine incSp_readReg_congr (readReg_writeReg_congr _ fun _ => hsp') fun hne => ?_
    exact readReg_writeReg_congr _ (absurd (hr.resolve_right hne))
  | add h1 h2 =>
    refine ⟨_, .add h1 h2, rfl, rfl, rfl, rfl, fun r hr => ?_⟩
    exact writeReg_alu_readReg_congr _ (regIndex_eq_of_mem hr) (hread _ (.head _)) (hread _ (.tail _ (.head _)))
  | sub h1 h2 =>
    refine ⟨_, .sub h1 h2, rfl, rfl, rfl, rfl, fun r hr => ?_⟩
    exact writeReg_alu_readReg_congr _ (regIndex_eq_of_mem hr) (hread _ (.head _)) (hread _ (.tail _ (.head _)))
  | mlt h1 h2 =>
    refine ⟨_, .mlt h1 h2, rfl, rfl, rfl, rfl, fun r hr => ?_⟩
    exact writeReg_alu_readReg_congr _ (regIndex_eq_of_mem hr) (hread _ (.head _)) (hread _ (.tail _ (.head _)))

end Sys2Proof.Machine
end

section
/-! PROOFS. One step (spec/40_step_cycle.md R70 to R78): what the fetch leaves to the instruction, and all that a step
can do. -/

namespace Sys2Proof.Machine

open Sys2Proof.Config (spIndex)

/-- An instruction that was fetched is the row of the opcode byte with the bytes after it, and lies in memory
(R57, R71 to R73). -/
theorem fetchInstr_ok {s : State} {i : Instr} (h : fetchInstr s = .ok i) :
    Opcode.ofByte s.opcodeByte = some i.opcode ∧ s.pc.toNat + i.opcode.operandCount < 256 ∧
    i = i.opcode.assemble s.operandByte (s.mem.readByte (s.pc.toNat + 2)) := by
  rcases fetchInstr_cases s with ⟨-, he⟩ | ⟨-, -, he⟩ | ⟨o, -, -, -, he⟩ | ⟨o, hfit, ho, he⟩
  · cases he.symm.trans h
  · cases he.symm.trans h
  · cases he.symm.trans h
  · cases he.symm.trans h
    rw [assemble_opcode]
    exact ⟨ho, hfit, rfl⟩

/-- From a pc in range, a cause raised by the fetch is one the spec's tables allow (R111, R112). -/
theorem fetchInstr_error_legal {s : State} {c : Cause} (hpc : s.pc.toNat ≤ 256) (h : fetchInstr s = .error c) :
    c.legal := by
  rcases fetchInstr_cases s with ⟨htop, he⟩ | ⟨-, hnone, he⟩ | ⟨o, -, -, -, he⟩ | ⟨o, -, -, he⟩
  · cases he.symm.trans h
    exact congrArg Int.ofNat (Nat.le_antisymm hpc htop)
  · cases he.symm.trans h
    exact hnone
  · cases he.symm.trans h
    rfl
  · cases he.symm.trans h

/-- A step raises `c`: the fetch does, or the instruction it answers (R70, R78). -/
def StepFaultsWith (s : State) (c : Cause) : Prop :=
  fetchInstr s = .error c ∨ ∃ i, fetchInstr s = .ok i ∧ FaultsWith i s c

/-- All that a step can do, and that it does each of these: fault entry, or an instruction that completes (R70, R77,
R116). -/
theorem step_eq_next_iff {s t : State} :
    step s = .next t ↔ s.run = .running ∧
      ((∃ c, StepFaultsWith s c ∧ t = { s with run := .faulted c }) ∨
        ∃ i, fetchInstr s = .ok i ∧ Completes i s t) := by
  rcases step_cases s with ⟨hr, hs⟩ | ⟨c, hr, hs⟩ | ⟨hr, c, hf, hs⟩ | ⟨hr, i, hf, hs⟩
  · simp [hr, hs]
  · simp [hr, hs]
  · simp [hr, hs, StepFaultsWith, hf, eq_comm]
  · simp [hr, hs, StepFaultsWith, hf, exec_eq_next_iff, or_comm]

/-- An instruction that completes from a Running state does not leave a Faulted one (R18). -/
theorem Completes.run_ne_faulted {i : Instr} {s t : State} (h : Completes i s t) (hr : s.run = .running) (c : Cause) :
    t.run ≠ .faulted c := by
  rcases h.run with ht | ⟨-, ht⟩ <;> simp [ht, hr]

/-- A step that does not fault completes the instruction it fetches. -/
theorem completes_of_step {s t : State} (h : step s = .next t) (ht : ∀ c, t.run ≠ .faulted c) :
    ∃ i, fetchInstr s = .ok i ∧ Completes i s t := by
  obtain ⟨-, ⟨c, -, rfl⟩ | hi⟩ := step_eq_next_iff.mp h
  · exact absurd rfl (ht c)
  · exact hi

/-! The invariant -/

/-- Settles O41: the memory is the image, pc is 0, and no cause is recorded. -/
theorem resetMeetsTheInvariant : Obligations.ResetMeetsTheInvariant := by
  have inv (r : Vector Byte 7) {m : Memory} (hm : m.wf) : (State.resetWith r m).Inv := ⟨hm, Nat.zero_le _, trivial⟩
  exact ⟨fun r _ hm => inv r hm, inv Config.initRegs ⟨.nil, nofun⟩⟩

/-- An instruction that completes and lies in memory keeps the invariant. -/
theorem Completes.inv {i : Instr} {s t : State} (h : Completes i s t) (hs : s.Inv)
    (hfit : s.pc.toNat + i.opcode.operandCount < 256) : t.Inv := by
  refine ⟨h.mem_wf hs.memory, ?_, ?_⟩
  · rw [h.pc hfit]
    exact nextPc_le hs.pcRange hfit
  · rcases h.run with ht | ⟨-, ht⟩
    · exact ht ▸ hs.cause
    · exact ht ▸ trivial

/-- A cause that a step raises from a pc in range is one the spec's tables allow (R110 to R114). -/
theorem StepFaultsWith.legal {s : State} {c : Cause} (h : StepFaultsWith s c) (hpc : s.pc.toNat ≤ 256) : c.legal := by
  rcases h with hf | ⟨i, hf, hc⟩
  · exact fetchInstr_error_legal hpc hf
  · obtain ⟨-, hfit, -⟩ := fetchInstr_ok hf
    exact hc.legal hfit

/-- Settles O42: fault entry keeps memory and pc and records a legal cause, and an instruction that completes keeps
the invariant. -/
theorem everyStepKeepsTheInvariant : Obligations.EveryStepKeepsTheInvariant := by
  intro s t hs h
  obtain ⟨-, ⟨c, hc, rfl⟩ | ⟨i, hf, hi⟩⟩ := step_eq_next_iff.mp h
  · exact ⟨hs.memory, hs.pcRange, hc.legal hs.pcRange⟩
  · obtain ⟨-, hfit, -⟩ := fetchInstr_ok hf
    exact hi.inv hs hfit

/-! The program counter, the output and the memory in a step -/

/-- Settles O9: the step completes the instruction of the row fetched, whose next pc is the table of R16. -/
theorem programCounterLaw : Obligations.ProgramCounterLaw := by
  intro s t o h ht ho
  obtain ⟨i, hf, hi⟩ := completes_of_step h ht
  obtain ⟨hop, hfit, hasm⟩ := fetchInstr_ok hf
  have hio : i.opcode = o := Option.some.inj (hop.symm.trans ho)
  rw [hi.pc hfit, hasm, hio]
  cases o <;> rfl

/-- Settles O37: of the two ways a step goes, only an instruction that completes can change memory, and then it is
PUSH or CALL. -/
theorem memoryChangesOnlyByPushOrCall : Obligations.MemoryChangesOnlyByPushOrCall := by
  intro s t a h hne
  obtain ⟨-, ⟨c, -, rfl⟩ | ⟨i, hf, hi⟩⟩ := step_eq_next_iff.mp h
  · exact absurd rfl hne
  · rcases hi.mem with hm | ⟨⟨op1, hi⟩, hsp, v, hm⟩
    · exact absurd (by rw [hm]) hne
    · obtain ⟨hop, -, -⟩ := fetchInstr_ok hf
      refine ⟨?_, ?_, hsp⟩
      · rw [← ofByte_eq_some.mp hop]
        rcases hi with rfl | rfl
        · exact .inl rfl
        · exact .inr rfl
      · by_contra ha
        exact hne (by rw [hm, readByte_writeByte_ne _ _ ha])

/-- Only an executed PRN changes the output, by the byte of the register it names. -/
theorem step_out {s t : State} (h : step s = .next t) :
    (s.opcodeByte = 0x47 ∧ (∀ c, t.run ≠ .faulted c) →
      ∃ h : s.operandByte.toNat < 8, t.out = s.out ++ [s.readReg ⟨s.operandByte.toNat, h⟩]) ∧
    (s.opcodeByte ≠ 0x47 ∨ (∃ c, t.run = .faulted c) → t.out = s.out) := by
  obtain ⟨hr, ⟨c, -, rfl⟩ | ⟨i, hf, hi⟩⟩ := step_eq_next_iff.mp h
  · exact ⟨fun ⟨_, ht⟩ => absurd rfl (ht c), fun _ => rfl⟩
  · obtain ⟨hop, -, hasm⟩ := fetchInstr_ok hf
    rcases hi.out with ⟨op1, h1, rfl, hout⟩ | ⟨hprn, hout⟩
    · obtain rfl : op1 = s.operandByte := Instr.prn.inj hasm
      refine ⟨fun _ => ⟨h1, hout⟩, ?_⟩
      rintro (hne | ⟨c, hc⟩)
      · exact absurd (ofByte_eq_some.mp hop).symm hne
      · exact absurd hc (hi.run_ne_faulted hr c)
    · refine ⟨fun ⟨h47, _⟩ => ?_, fun _ => hout⟩
      rw [h47] at hop
      exact absurd (Option.some.inj hop).symm hprn

/-- The output is never read back: with another output so far, the same step appends the same bytes. -/
theorem step_append_out {s t : State} (h : step s = .next t) (o : List Byte) :
    ∃ added, t.out = s.out ++ added ∧ step { s with out := o } = .next { t with out := o ++ added } := by
  obtain ⟨hr, ⟨c, hc, rfl⟩ | ⟨i, hf, hi⟩⟩ := step_eq_next_iff.mp h
  · refine ⟨[], (List.append_nil _).symm, step_eq_next_iff.mpr ⟨hr, .inl ⟨c, ?_, by rw [List.append_nil]⟩⟩⟩
    exact hc.imp id fun ⟨i, hf, hi⟩ => ⟨i, hf, hi.of_sp rfl fun _ => rfl⟩
  · obtain ⟨added, hout, hi⟩ := hi.append_out o
    exact ⟨added, hout, step_eq_next_iff.mpr ⟨hr, .inr ⟨i, hf, hi⟩⟩⟩

/-- Settles O36: what a step does to the output, and that it does the same whatever the output so far. -/
theorem outputGrowsOnlyByPrn : Obligations.OutputGrowsOnlyByPrn :=
  ⟨fun _ _ => step_out, fun _ _ o h => step_append_out h o⟩

/-! Every instruction: registers, memory, run state and bad indices -/

/-- Settles O31: fault entry writes no register. -/
theorem registersOutsideTheTableAreKept : Obligations.RegistersOutsideTheTableAreKept := by
  intro i s t h
  rcases exec_eq_next_iff.mp h with hi | ⟨c, -, rfl⟩
  · exact hi.regs
  · exact fun _ _ => rfl

/-- Settles O32: the two states differ in registers alone, and neither the checks nor the effect of an instruction
depend on one it does not read. -/
theorem onlyTableRegistersAreRead : Obligations.OnlyTableRegistersAreRead := by
  intro i s u t hs hu hpc hmem hout hread h
  obtain ⟨rs, rfl⟩ : ∃ rs, u = { s with regs := rs } := ⟨u.regs, by cases u; simp_all⟩
  rcases exec_eq_next_iff.mp h with hi | ⟨c, hc, rfl⟩
  · obtain ⟨v, hv, hpc, hmem, hrun, hout, hregs⟩ := hi.of_readRegisters hread
    exact ⟨v, exec_eq_next_iff.mpr (.inl hv), hpc, hmem, hrun, hout, fun _ => hregs⟩
  · have hc' := hc.of_sp (u := { s with regs := rs }) rfl (hread spIndex)
    exact ⟨_, exec_eq_next_iff.mpr (.inr ⟨c, hc', rfl⟩), rfl, rfl, rfl, rfl, fun ht => absurd rfl (ht c)⟩

/-- Settles O33: of the instructions that complete, only PUSH and CALL change memory. -/
theorem nonStoringInstructionsKeepMemory : Obligations.NonStoringInstructionsKeepMemory := by
  intro i s t hne h a
  rcases exec_eq_next_iff.mp h with hi | ⟨c, -, rfl⟩
  · rcases hi.mem with hm | ⟨⟨op1, hi⟩, -⟩
    · rw [hm]
    · exact absurd hi (not_or.mpr (hne op1))
  · rfl

/-- Settles O35: an instruction that completes keeps the run state unless it is HALT, and fault entry is the third case. -/
theorem runStateChangesOnlyByHaltOrFault : Obligations.RunStateChangesOnlyByHaltOrFault := by
  intro i s t h
  rcases exec_eq_next_iff.mp h with hi | ⟨c, -, rfl⟩
  · exact hi.run.imp id .inl
  · exact .inr (.inr ⟨c, rfl⟩)

/-- Settles O39: the bad index is what the instruction raises, and no other of its causes is a register index. -/
theorem firstBadIndexIsReported : Obligations.FirstBadIndexIsReported := by
  intro i s
  refine ⟨fun k hk => ⟨_, exec_eq_next_iff.mpr (.inr ⟨_, .badIndex hk, rfl⟩), rfl, rfl⟩, fun t k hr h ht => ?_⟩
  rcases exec_eq_next_iff.mp h with hi | ⟨c, hc, rfl⟩
  · exact absurd ht (hi.run_ne_faulted hr _)
  · obtain rfl := RunState.faulted.inj ht
    cases hc with
    | badIndex hk => exact wellFormed_of_badIndex? hk

/-! Reset and the registers -/

/-- Settles O10, by the laws of `State.resetWith`. -/
theorem resetLeaves : Obligations.ResetLeaves :=
  ⟨fun r m => ⟨resetWith_sp r m, rfl, resetWith_run r m, resetWith_out r m, resetWith_mem r m, resetWith_readReg r m⟩,
    Config.initRegs, [], rfl⟩

/-- Settles O16, by the law of reading a register after a write: the value written is kept modulo 256. -/
theorem registerWritesAreMasked : Obligations.RegisterWritesAreMasked := by
  refine fun s i v => ⟨?_, fun j hj => readReg_writeReg_ne s v hj, rfl⟩
  rw [readReg_writeReg_same, BitVec.toNat_ofInt]
  omega

end Sys2Proof.Machine
end

section
/-! PROOFS. Memory (spec/20_memory.md R31 to R42): checked access, a read after any writes, and what a PUSH or CALL
stores. -/

namespace Sys2Proof.Machine

open Sys2Proof.Config (memSize)

/-! Checked access -/

theorem memWrite_ok {kind : AddressKind} {a : Nat} {v : Byte} {m : Memory} (h : a < memSize) :
    memWrite kind a v m = .ok (m.writeByte a v) := if_pos h

theorem memWrite_error {kind : AddressKind} {a : Nat} {v : Byte} {m : Memory} (h : ¬ a < memSize) :
    memWrite kind a v m = .error (.addressError kind a) := if_neg h

/-- Settles O14: 255 is the last address of the space, and a write is read at its own cell only. -/
theorem memoryAccessIsChecked : Obligations.MemoryAccessIsChecked := by
  intro kind a v m
  constructor
  · intro ha
    have hlt : a < memSize := Nat.lt_succ_of_le ha
    exact ⟨memRead_ok hlt, _, memWrite_ok hlt, readByte_writeByte_same m a v, fun _ => readByte_writeByte_ne m v⟩
  · intro ha
    have hge : ¬ a < memSize := Nat.not_lt_of_ge ha
    exact ⟨memRead_error hge, memWrite_error hge⟩

/-- Settles O15, by induction on the writes from the last one back: either it is to the cell that is read, or it leaves
that cell as the writes before it did. -/
theorem readAnswersLatestWrite : Obligations.ReadAnswersLatestWrite := by
  intro writes m a
  induction writes using List.reverseRecOn with
  | nil => rfl
  | append_singleton before last ih =>
    rw [List.foldl_concat, List.reverse_concat, readByte_writeByte]
    by_cases hlast : last.1 = a
    · simp [hlast]
    · simp [hlast, ih]

/-! The cell a PUSH or CALL stores to -/

/-- Whatever completes, no cell changes but the one the decremented SP addresses (R32, R33). -/
theorem Completes.sameMemoryExcept {i : Instr} {s t : State} (h : Completes i s t) :
    SameMemoryExcept s.decSp.stackAddress s t := by
  cases h with
  | push | call => exact fun _ => readByte_writeByte_ne s.mem _
  | halt | ldi | pop | ret | prn | add | sub | mlt => exact fun _ _ => rfl

/-- The frame of memory of `exec`: fault entry changes no cell either (R116). -/
theorem exec_sameMemoryExcept {i : Instr} {s t : State} (h : exec i s = .next t) :
    SameMemoryExcept s.decSp.stackAddress s t := by
  rcases exec_eq_next_iff.mp h with hi | ⟨c, -, rfl⟩
  · exact hi.sameMemoryExcept
  · exact fun _ _ => rfl

/-- Settles O34, by the frame of memory of `exec`. -/
theorem storingInstructionsKeepOtherCells : Obligations.StoringInstructionsKeepOtherCells := by
  rintro op1 s t (h | h) a rfl
  · exact exec_sameMemoryExcept h
  · exact exec_sameMemoryExcept h

/-! The byte a PUSH or CALL stores -/

/-- A PUSH leaves at SP the register it names, read after the decrement (R90, decision D13). -/
theorem Completes.readByte_sp_of_push {op1 : Byte} {s t : State} (h : Completes (.push op1) s t) :
    ∃ h1 : op1.toNat < 8, t.mem.readByte t.sp.toNat = s.decSp.readReg ⟨op1.toNat, h1⟩ := by
  cases h with
  | push h1 hsp => exact ⟨h1, readByte_writeByte_same s.mem _ _⟩

/-- A CALL leaves at SP the address of the instruction after it (R95). -/
theorem Completes.readByte_sp_of_call {op1 : Byte} {s t : State} (h : Completes (.call op1) s t) :
    t.mem.readByte t.sp.toNat = BitVec.ofNat 8 s.returnAddress := by
  cases h with
  | call h1 ha hsp => exact readByte_writeByte_same s.mem _ _

/-- A step that does not fault completes the row of its opcode byte with the bytes fetched after it. -/
theorem completes_row_of_step {s t : State} {o : Opcode} (h : step s = .next t) (ht : ∀ c, t.run ≠ .faulted c)
    (ho : s.opcodeByte = o.byte) :
    Completes (o.assemble s.operandByte (s.mem.readByte (s.pc.toNat + 2))) s t := by
  obtain ⟨i, hf, hi⟩ := completes_of_step h ht
  obtain ⟨hop, -, hasm⟩ := fetchInstr_ok hf
  rw [ho, ofByte_byte] at hop
  have hio : i.opcode = o := (Option.some.inj hop).symm
  rwa [hasm, hio] at hi

/-- The byte of the cell at SP is what a fetch of that cell answers, of any kind, SP being a valid address; where pc
is that cell, it is the next opcode (R40, R71). -/
theorem fetch_at_sp {t : State} {b : Byte} (kind : AddressKind) (h : t.mem.readByte t.sp.toNat = b) :
    memRead kind t.sp.toNat t.mem = .ok b ∧ (t.sp.toNat = t.pc.toNat → t.opcodeByte = b) := by
  subst h
  exact ⟨memRead_ok t.sp.isLt, fun hpc => by rw [State.opcodeByte, hpc]⟩

/-- Settles O47: the step completes the PUSH or CALL of the bytes it fetched, and what that leaves at SP is what a fetch
there answers. -/
theorem nextFetchSeesTheStoredByte : Obligations.NextFetchSeesTheStoredByte := by
  intro s t kind h hrun
  have ht (c : Cause) : t.run ≠ .faulted c := by simp [hrun]
  constructor
  · intro hop
    have hi : Completes (.push s.operandByte) s t := completes_row_of_step (o := .push) h ht hop
    obtain ⟨h1, hb⟩ := hi.readByte_sp_of_push
    exact ⟨h1, fetch_at_sp kind hb⟩
  · intro hop
    have hi : Completes (.call s.operandByte) s t := completes_row_of_step (o := .call) h ht hop
    exact fetch_at_sp kind hi.readByte_sp_of_call

end Sys2Proof.Machine
end

section
/-! PROOFS. Encoding (spec/30_encoding.md R50 to R59): decode and encode are inverse to each other, and which bytes are
no opcode. -/

namespace Sys2Proof

/-! Decode and encode -/

/-- Of the two bytes a row is assembled with, its instruction keeps as many as the row has operands (R51). -/
theorem operandBytes_assemble (o : Opcode) (op1 op2 : Byte) :
    (o.assemble op1 op2).operandBytes = [op1, op2].take o.operandCount := by
  cases o <;> rfl

/-- Behind a row's byte the decoder reads the row's operands (R50, R52). -/
theorem decode_byte_cons (o : Opcode) (bytes : List Byte) : decode (o.byte :: bytes) = decodeOperands o bytes := by
  simp only [decode, ofByte_byte]

/-- A byte in no row is rejected by name, whatever follows (R58). -/
theorem decode_unknown {b : Byte} (h : Opcode.ofByte b = none) (bytes : List Byte) :
    decode (b :: bytes) = .error (.unknownOpcode b) := by
  simp only [decode, h]

/-- An instruction's operand bytes decode to it, behind its opcode (R51, R57). -/
theorem decodeOperands_operandBytes (i : Instr) (rest : List Byte) :
    decodeOperands i.opcode (i.operandBytes ++ rest) = .ok (i, rest) := by
  cases i <;> rfl

/-- What the operand decoder answers is an instruction of its row, and the bytes are that instruction's operand bytes
followed by the rest. -/
theorem eq_operandBytes_append_of_decodeOperands {o : Opcode} {bytes rest : List Byte} {i : Instr}
    (h : decodeOperands o bytes = .ok (i, rest)) : i.opcode = o ∧ bytes = i.operandBytes ++ rest := by
  rcases decodeOperands_cases h with ⟨ho, rfl, rfl⟩ | ⟨op1, ho, rfl, rfl⟩ | ⟨op1, op2, ho, rfl, rfl⟩ <;>
    simp [assemble_opcode, operandBytes_assemble, ho]

/-- Decoding undoes encoding and leaves the bytes after it. -/
theorem decode_encode (i : Instr) (rest : List Byte) : decode (encode i ++ rest) = .ok (i, rest) :=
  (decode_byte_cons i.opcode _).trans (decodeOperands_operandBytes i rest)

/-- Bytes that decode are the encoding of the instruction and the bytes left over. -/
theorem eq_encode_append_of_decode {bytes rest : List Byte} {i : Instr} (h : decode bytes = .ok (i, rest)) :
    bytes = encode i ++ rest := by
  cases bytes with
  | nil => cases h
  | cons b bytes =>
    cases ho : Opcode.ofByte b with
    | none => cases (decode_unknown ho bytes).symm.trans h
    | some o =>
      obtain rfl := ofByte_eq_some.mp ho
      rw [decode_byte_cons] at h
      obtain ⟨rfl, rfl⟩ := eq_operandBytes_append_of_decodeOperands h
      rfl

/-- Settles O2: a word decodes to its instruction, and bytes that decode are such a word. -/
theorem decodeInvertsEncode : Obligations.DecodeInvertsEncode := by
  intro bytes rest i
  constructor
  · exact eq_encode_append_of_decode
  · rintro rfl
    exact decode_encode i rest

/-- Settles O1: each word is the encoding of its instruction. -/
theorem specWordsDecode : Obligations.SpecWordsDecode :=
  ⟨decode_encode .halt [], decode_encode (.ldi 0 8) [], decode_encode (.push 7) [], decode_encode (.pop 2) [],
    decode_encode (.call 1) [], decode_encode .ret [], decode_encode (.prn 0) [], decode_encode (.add 2 3) [],
    decode_encode (.sub 1 0) [], decode_encode (.mlt 0 1) []⟩

/-! The opcode byte -/

theorem encode_length (i : Instr) : (encode i).length = i.length := by
  rw [encode, List.length_cons, operandBytes_length, Instr.length, Nat.add_comm]

/-- The first byte is the row's byte (R52). -/
theorem ofByte_of_decode {b : Byte} {bytes rest : List Byte} {i : Instr} (h : decode (b :: bytes) = .ok (i, rest)) :
    Opcode.ofByte b = some i.opcode :=
  ofByte_eq_some.mpr (List.cons.inj (eq_encode_append_of_decode h)).1.symm

/-- Decoding consumes the instruction's length (R59). -/
theorem length_of_decode {bytes rest : List Byte} {i : Instr} (h : decode bytes = .ok (i, rest)) :
    bytes.length = i.length + rest.length := by
  rw [eq_encode_append_of_decode h, List.length_append, encode_length]

/-- Settles O3: the row is what the first byte decodes to, and the length is the row's. -/
theorem opcodeByteFixesRowAndLength : Obligations.OpcodeByteFixesRowAndLength := by
  intro b r₁ r₂ x₁ x₂ i₁ i₂ h₁ h₂
  have hrow : i₁.opcode = i₂.opcode := Option.some.inj ((ofByte_of_decode h₁).symm.trans (ofByte_of_decode h₂))
  have hlen : i₁.length = i₂.length := congrArg (fun o => 1 + o.operandCount) hrow
  exact ⟨hrow, hlen, length_of_decode h₁, length_of_decode h₂⟩

/-! Bytes that are no opcode -/

/-- A byte is unknown exactly if it is the byte of no row (R58). -/
theorem ofByte_eq_none {b : Byte} : Opcode.ofByte b = none ↔ ∀ o ∈ Opcode.all, o.byte ≠ b := by
  simp [Opcode.ofByte]

/-- The bytes of the ten rows leave out the ranges R58 lists, and no other byte (R53). -/
theorem ofByte_eq_none_iff_ranges {b : Byte} : Opcode.ofByte b = none ↔
    b.toNat = 0x00 ∨ (0x02 ≤ b.toNat ∧ b.toNat ≤ 0x10) ∨ (0x12 ≤ b.toNat ∧ b.toNat ≤ 0x44) ∨
    (0x48 ≤ b.toNat ∧ b.toNat ≤ 0x4F) ∨ (0x51 ≤ b.toNat ∧ b.toNat ≤ 0x81) ∨
    (0x83 ≤ b.toNat ∧ b.toNat ≤ 0x9F) ∨ 0xA3 ≤ b.toNat := by
  simp only [ofByte_eq_none, Opcode.all, List.forall_mem_cons, List.not_mem_nil, false_implies, implies_true, and_true,
    Opcode.byte, subOpcode]
  bv_omega

end Sys2Proof

namespace Sys2Proof.Machine

/-- An unknown opcode byte is the cause the fetch raises, wherever it stands and before any operand is looked at
(R72). -/
theorem fetchInstr_of_unknown {s : State} (hpc : s.pc.toNat ≤ 255) (h : Opcode.ofByte s.opcodeByte = none) :
    fetchInstr s = .error (.unknownOpcode s.opcodeByte) := by
  rcases fetchInstr_cases s with ⟨htop, -⟩ | ⟨-, -, he⟩ | ⟨o, -, ho, -⟩ | ⟨o, -, ho, -⟩
  · exact absurd htop (Nat.not_le_of_lt (Nat.lt_succ_of_le hpc))
  · exact he
  · cases h.symm.trans ho
  · cases h.symm.trans ho

/-- Settles O4: the fetch of an unknown byte raises its name, and fault entry sets `run` only. -/
theorem unknownOpcodesFaultAtDecode : Obligations.UnknownOpcodesFaultAtDecode := by
  refine fun b => ⟨ofByte_eq_none_iff_ranges, decode_unknown, ?_⟩
  rintro h s hrun hpc rfl
  exact step_eq_next_iff.mpr ⟨hrun, .inl ⟨_, .inl (fetchInstr_of_unknown hpc h), rfl⟩⟩

end Sys2Proof.Machine
end

section
/-! PROOFS. The step cycle (spec/40_step_cycle.md R70 to R78): the fetch reads what the decoder of bytes reads, the order
of all checks, and that a stopped machine stays as it is. -/

namespace Sys2Proof.Machine

open Sys2Proof.Config (memSize)

/-! What the fetch answers, in the order of its checks -/

/-- A pc above the top of memory raises AddressError(fetch, pc) (R71). -/
theorem fetchInstr_of_above {s : State} (hpc : 255 < s.pc.toNat) :
    fetchInstr s = .error (.addressError .fetch s.pc.toNat) := by
  rcases fetchInstr_cases s with ⟨-, he⟩ | ⟨hlt, -⟩ | ⟨o, hlt, -⟩ | ⟨o, hfit, -⟩
  · exact he
  · exact absurd hlt (Nat.not_lt_of_ge hpc)
  · exact absurd hlt (Nat.not_lt_of_ge hpc)
  · exact absurd hfit (Nat.not_lt_of_ge (Nat.le_add_right_of_le hpc))

/-- An operand byte above the top of memory raises AddressError(operand, 256) (R73). -/
theorem fetchInstr_of_short {s : State} {o : Opcode} (hpc : s.pc.toNat ≤ 255)
    (ho : Opcode.ofByte s.opcodeByte = some o) (hshort : 255 < s.pc.toNat + o.operandCount) :
    fetchInstr s = .error (.addressError .operand 256) := by
  rcases fetchInstr_cases s with ⟨htop, -⟩ | ⟨-, hnone, -⟩ | ⟨o', -, -, -, he⟩ | ⟨o', hfit, ho', -⟩
  · exact absurd htop (Nat.not_le_of_lt (Nat.lt_succ_of_le hpc))
  · cases ho.symm.trans hnone
  · exact he
  · cases ho.symm.trans ho'
    exact absurd hfit (Nat.not_lt_of_ge hshort)

/-- Where all of its bytes lie in memory, the row of the opcode byte is fetched with the bytes after it (R57, R73). -/
theorem fetchInstr_of_fits {s : State} {o : Opcode} (ho : Opcode.ofByte s.opcodeByte = some o)
    (hfit : s.pc.toNat + o.operandCount ≤ 255) :
    fetchInstr s = .ok (o.assemble s.operandByte (s.mem.readByte (s.pc.toNat + 2))) := by
  rcases fetchInstr_cases s with ⟨htop, -⟩ | ⟨-, hnone, -⟩ | ⟨o', -, ho', hshort, -⟩ | ⟨o', -, ho', he⟩
  · exact absurd (Nat.le_add_right_of_le htop) (Nat.not_le_of_lt (Nat.lt_succ_of_le hfit))
  · cases ho.symm.trans hnone
  · cases ho.symm.trans ho'
    exact absurd hshort (Nat.not_le_of_lt (Nat.lt_succ_of_le hfit))
  · cases ho.symm.trans ho'
    exact he

/-! What a step reports -/

/-- The cause a step raises is the one it records (R116). -/
theorem run_of_stepFaultsWith {s t : State} {c : Cause} (h : step s = .next t) (hc : StepFaultsWith s c) :
    t.run = .faulted c := by
  obtain ⟨hr, -⟩ := step_eq_next_iff.mp h
  have hfault := step_eq_next_iff.mpr ⟨hr, .inl ⟨c, hc, rfl⟩⟩
  cases h.symm.trans hfault
  rfl

/-- A cause raised by the fetch is fault entry of the step (R70, R116). -/
theorem step_raises_of_fetchInstr {s : State} {c : Cause} (hr : s.run = .running) (hf : fetchInstr s = .error c) :
    Raises (step s) c s :=
  ⟨_, step_eq_next_iff.mpr ⟨hr, .inl ⟨c, .inl hf, rfl⟩⟩, rfl, rfl⟩

/-- Settles O6: each is a cause that the fetch raises, and the step takes it. -/
theorem fetchAndDecodeFaults : Obligations.FetchAndDecodeFaults := by
  intro s hr
  refine ⟨fun hpc => ?_, fun hpc hnone => ?_, fun o hpc ho hshort => ?_⟩
  · exact step_raises_of_fetchInstr hr (fetchInstr_of_above hpc)
  · exact step_raises_of_fetchInstr hr (fetchInstr_of_unknown hpc hnone)
  · exact step_raises_of_fetchInstr hr (fetchInstr_of_short hpc ho hshort)

/-! The order of the checks -/

/-- The causes of an instruction whose register operands are all indices, each with the condition it is raised under:
the return address comes before the boundary (R78, R95, R112). -/
theorem faultsWith_iff_of_badIndex?_eq_none {i : Instr} {s : State} {c : Cause} (hk : i.badIndex? = none) :
    FaultsWith i s c ↔
      (i.opcode = .call ∧ 255 < s.returnAddress ∧ c = .addressError .returnAddress s.returnAddress) ∨
      ((i.opcode = .push ∨ i.opcode = .call ∧ s.returnAddress ≤ 255) ∧ s.sp = 0 ∧
        c = .addressError .stackPointer (-1)) ∨
      ((i.opcode = .pop ∨ i.opcode = .ret) ∧ s.sp = 255 ∧ c = .addressError .stackPointer 256) := by
  constructor
  · intro h
    cases h with
    | badIndex hk' => cases hk.symm.trans hk'
    | returnAddress h ha => exact .inl ⟨rfl, ha, rfl⟩
    | push h hsp => exact .inr (.inl ⟨.inl rfl, hsp, rfl⟩)
    | call h ha hsp => exact .inr (.inl ⟨.inr ⟨rfl, ha⟩, hsp, rfl⟩)
    | pop h hsp => exact .inr (.inr ⟨.inl rfl, hsp, rfl⟩)
    | ret hsp => exact .inr (.inr ⟨.inr rfl, hsp, rfl⟩)
  · intro h
    cases i with
    | push op1 =>
      obtain ⟨hsp, rfl⟩ : s.sp = 0 ∧ c = _ := by simpa [Instr.opcode] using h
      exact .push (lt_of_badIndex?_eq_none hk (.head _)) hsp
    | pop op1 =>
      obtain ⟨hsp, rfl⟩ : s.sp = 255 ∧ c = _ := by simpa [Instr.opcode] using h
      exact .pop (lt_of_badIndex?_eq_none hk (.head _)) hsp
    | ret =>
      obtain ⟨hsp, rfl⟩ : s.sp = 255 ∧ c = _ := by simpa [Instr.opcode] using h
      exact .ret hsp
    | call op1 =>
      have hop : op1.toNat < 8 := lt_of_badIndex?_eq_none hk (.head _)
      rcases h with ⟨-, ha, rfl⟩ | ⟨hrow, hsp, rfl⟩ | ⟨hrow, -⟩
      · exact .returnAddress hop ha
      · exact .call hop (hrow.resolve_left nofun).2 hsp
      · exact absurd hrow (not_or.mpr ⟨nofun, nofun⟩)
    | halt | ldi | prn | add | sub | mlt => simp [Instr.opcode] at h

/-- An instruction that completes halts if it is HALT, and else leaves the run state (R18, R80). -/
theorem Completes.run_eq {i : Instr} {s t : State} (h : Completes i s t) :
    t.run = if i.opcode = .halt then .halted else s.run := by
  cases h with
  | halt => rfl
  | ldi | push | pop | call | ret | prn | add | sub | mlt => rfl

/-- A step whose fetch succeeds and whose instruction raises nothing completes that instruction. -/
theorem completes_of_fetchInstr {s t : State} {i : Instr} (h : step s = .next t) (hf : fetchInstr s = .ok i)
    (hno : ∀ c, ¬ FaultsWith i s c) : Completes i s t := by
  obtain ⟨-, ⟨c, hc | ⟨j, hj, hc⟩, -⟩ | ⟨j, hj, hi⟩⟩ := step_eq_next_iff.mp h
  · cases hf.symm.trans hc
  · cases hf.symm.trans hj
    exact absurd hc (hno c)
  · cases hf.symm.trans hj
    exact hi

/-- The checks after the register indices, and what follows where none applies (R78, R95, R112). -/
theorem run_of_badIndex?_eq_none {s t : State} {i : Instr} (h : step s = .next t) (hf : fetchInstr s = .ok i)
    (hk : i.badIndex? = none) (hfit : s.pc.toNat + i.opcode.operandCount ≤ 255) :
    t.run =
      if i.opcode = .call ∧ 255 < s.pc.toNat + 2 then .faulted (.addressError .returnAddress 256)
      else if (i.opcode = .push ∨ i.opcode = .call) ∧ s.sp = 0 then .faulted (.addressError .stackPointer (-1))
      else if (i.opcode = .pop ∨ i.opcode = .ret) ∧ s.sp = 255 then .faulted (.addressError .stackPointer 256)
      else if i.opcode = .halt then .halted else .running := by
  have hfaults (c : Cause) := faultsWith_iff_of_badIndex?_eq_none (s := s) (c := c) hk
  have raise {c : Cause} (hc : FaultsWith i s c) : t.run = .faulted c :=
    run_of_stepFaultsWith h (.inr ⟨i, hf, hc⟩)
  by_cases hret : i.opcode = .call ∧ 255 < s.pc.toNat + 2
  · rw [if_pos hret]
    obtain ⟨hcall, hret⟩ := hret
    have htop : s.pc.toNat + 1 ≤ 255 := by rwa [hcall] at hfit
    have h256 : s.returnAddress = 256 := Nat.le_antisymm (Nat.succ_le_succ htop) hret
    refine raise ((hfaults _).mpr (.inl ⟨hcall, hret, ?_⟩))
    rw [h256]
    rfl
  rw [if_neg hret]
  by_cases hpush : (i.opcode = .push ∨ i.opcode = .call) ∧ s.sp = 0
  · rw [if_pos hpush]
    obtain ⟨hrow, hsp⟩ := hpush
    refine raise ((hfaults _).mpr (.inr (.inl ⟨?_, hsp, rfl⟩)))
    exact hrow.imp_right fun hcall => ⟨hcall, Nat.le_of_not_lt fun ha => hret ⟨hcall, ha⟩⟩
  rw [if_neg hpush]
  by_cases hpop : (i.opcode = .pop ∨ i.opcode = .ret) ∧ s.sp = 255
  · rw [if_pos hpop]
    obtain ⟨hrow, hsp⟩ := hpop
    exact raise ((hfaults _).mpr (.inr (.inr ⟨hrow, hsp, rfl⟩)))
  rw [if_neg hpop]
  have hi : Completes i s t := by
    refine completes_of_fetchInstr h hf fun c hc => ?_
    rcases (hfaults c).mp hc with ⟨hcall, ha, -⟩ | ⟨hrow, hsp, -⟩ | ⟨hrow, hsp, -⟩
    · exact hret ⟨hcall, ha⟩
    · exact hpush ⟨hrow.imp_right And.left, hsp⟩
    · exact hpop ⟨hrow, hsp⟩
  obtain ⟨hr, -⟩ := step_eq_next_iff.mp h
  rw [hi.run_eq, hr]

/-- Settles O40: down the chain, each condition makes the step raise the cause it names; where none applies, the
instruction completes. -/
theorem faultPriorityOrder : Obligations.FaultPriorityOrder := by
  intro s t hr h
  by_cases hpc : 255 < s.pc.toNat
  · rw [if_pos hpc]
    exact run_of_stepFaultsWith h (.inl (fetchInstr_of_above hpc))
  rw [if_neg hpc]
  cases ho : Opcode.ofByte s.opcodeByte with
  | none => exact run_of_stepFaultsWith h (.inl (fetchInstr_of_unknown (Nat.le_of_not_lt hpc) ho))
  | some o =>
    dsimp only
    by_cases hshort : 255 < s.pc.toNat + o.operandCount
    · rw [if_pos hshort]
      exact run_of_stepFaultsWith h (.inl (fetchInstr_of_short (Nat.le_of_not_lt hpc) ho hshort))
    rw [if_neg hshort]
    have hf := fetchInstr_of_fits ho (Nat.le_of_not_lt hshort)
    have hop := assemble_opcode o s.operandByte (s.mem.readByte (s.pc.toNat + 2))
    generalize o.assemble s.operandByte (s.mem.readByte (s.pc.toNat + 2)) = i at hf hop ⊢
    subst hop
    cases hk : i.badIndex? with
    | some k =>
      rw [show i.registerOperands.find? _ = some k from hk]
      exact run_of_stepFaultsWith h (.inr ⟨i, hf, .badIndex hk⟩)
    | none =>
      rw [show i.registerOperands.find? _ = none from hk]
      exact run_of_badIndex?_eq_none h hf hk (Nat.le_of_not_lt hshort)

/-! Stopped states -/

/-- Settles O8: only a Running state steps, and of the instructions only HALT leaves a Halted state. -/
theorem haltedAndFaultedAreTerminal : Obligations.HaltedAndFaultedAreTerminal := by
  refine ⟨fun s hs => ?_, fun s c hs => ?_, fun s t h ht => ?_⟩
  · rw [step, hs]
  · rw [step, hs]
  · obtain ⟨hr, -⟩ := step_eq_next_iff.mp h
    obtain ⟨i, hf, hi⟩ := completes_of_step h (by simp [ht])
    obtain ⟨hop, -, -⟩ := fetchInstr_ok hf
    rcases hi.run with hrun | ⟨rfl, -⟩
    · simp [ht, hr] at hrun
    · cases hi
      exact ⟨(ofByte_eq_some.mp hop).symm, rfl⟩

/-- A run can be followed no further than a state that is not Running, so two runs from one state to such states end in
the same one (R77). -/
theorem StepsTo.eq_of_stopped {n m : Nat} {s t u : State} (hst : StepsTo n s t) (hsu : StepsTo m s u)
    (ht : t.run ≠ .running) (hu : u.run ≠ .running) : t = u := by
  have running {v w : State} (h : step v = .next w) : v.run = .running := (step_eq_next_iff.mp h).1
  induction n generalizing m s with
  | zero =>
    cases hst
    cases m with
    | zero => exact hsu
    | succ m =>
      obtain ⟨v, hv, -⟩ := hsu
      exact absurd (running hv) ht
  | succ n ih =>
    obtain ⟨v, hv, hvt⟩ := hst
    cases m with
    | zero =>
      cases hsu
      exact absurd (running hv) hu
    | succ m =>
      obtain ⟨w, hw, hwu⟩ := hsu
      cases hv.symm.trans hw
      exact ih hvt hwu

/-- However a run ends, it ends in a state that is not Running (R134). -/
theorem stepsTo_of_ends {s t : State} (h : EndsWell s t ∨ EndsBadly s t) :
    ∃ n, StepsTo n s t ∧ t.run ≠ .running := by
  rcases h with ⟨n, hst, ht⟩ | ⟨n, c, hst, ht⟩
  · exact ⟨n, hst, by simp [ht]⟩
  · exact ⟨n, hst, by simp [ht]⟩

/-- Settles O44: both ends are states where the run goes no further. -/
theorem runsEndInOneWay : Obligations.RunsEndInOneWay := by
  intro s t u ht hu
  obtain ⟨n, hst, ht⟩ := stepsTo_of_ends ht
  obtain ⟨m, hsu, hu⟩ := stepsTo_of_ends hu
  exact hst.eq_of_stopped hsu ht hu

/-! The bytes at pc -/

/-- The bytes from an address on are three, cut off at the top of memory. -/
theorem bytesFrom_eq_take (m : Memory) (a : Nat) :
    bytesFrom m a = [m.readByte a, m.readByte (a + 1), m.readByte (a + 2)].take (memSize - a) := by
  have hcells : (List.range 3).filter (fun k => a + k < memSize) = (List.range 3).take (memSize - a) := by
    simp only [← Nat.lt_sub_iff_add_lt']
    rw [List.take_range, ← List.Ico.zero_bot, List.Ico.filter_lt, List.Ico.zero_bot, Nat.min_comm]
  rw [bytesFrom, hcells, List.map_take]
  rfl

/-- Below the top of memory they begin with the byte at the address itself. -/
theorem bytesFrom_of_lt (m : Memory) {a : Nat} (h : a < memSize) :
    bytesFrom m a = m.readByte a :: [m.readByte (a + 1), m.readByte (a + 2)].take (memSize - (a + 1)) := by
  rw [bytesFrom_eq_take, show memSize - a = memSize - (a + 1) + 1 by omega, List.take_succ_cons]

/-- What lies in memory at a row's byte decodes to the row with the bytes after it, if its operands lie in memory too
(R50, R57). -/
theorem decode_bytesFrom {m : Memory} {a : Nat} {o : Opcode} (ho : Opcode.ofByte (m.readByte a) = some o)
    (hfit : a + o.operandCount < memSize) :
    ∃ rest, decode (bytesFrom m a) = .ok (o.assemble (m.readByte (a + 1)) (m.readByte (a + 2)), rest) := by
  have hbytes : encode (o.assemble (m.readByte (a + 1)) (m.readByte (a + 2))) =
      (bytesFrom m a).take (o.operandCount + 1) := by
    rw [encode, assemble_opcode, operandBytes_assemble, ofByte_eq_some.mp ho, bytesFrom_eq_take, List.take_take,
      Nat.min_eq_left (by omega), List.take_succ_cons]
  refine ⟨(bytesFrom m a).drop (o.operandCount + 1), ?_⟩
  rw [← decode_encode, hbytes, List.take_append_drop]

/-- Bytes at pc that decode are fetched as the instruction they decode to (R57, R70 to R73). -/
theorem fetchInstr_of_decode {s : State} {i : Instr} {rest : List Byte}
    (h : decode (bytesFrom s.mem s.pc.toNat) = .ok (i, rest)) : fetchInstr s = .ok i := by
  rcases fetchInstr_cases s with ⟨htop, -⟩ | ⟨hpc, hnone, -⟩ | ⟨o, hpc, ho, hshort, -⟩ | ⟨o, hfit, ho, he⟩
  · rw [bytesFrom_eq_take, Nat.sub_eq_zero_of_le htop] at h
    cases h
  · rw [bytesFrom_of_lt _ hpc, decode_unknown hnone] at h
    cases h
  · have hlen := length_of_decode h
    rw [bytesFrom_of_lt _ hpc] at h
    have hrow : i.opcode = o := Option.some.inj ((ofByte_of_decode h).symm.trans ho)
    rw [bytesFrom_eq_take, List.length_take, Instr.length, hrow] at hlen
    omega
  · obtain ⟨rest', hdec⟩ := decode_bytesFrom ho hfit
    cases h.symm.trans hdec
    exact he

/-- Settles O5: the step runs the instruction that the fetch answers. -/
theorem stepRunsTheDecodedInstruction : Obligations.StepRunsTheDecodedInstruction := by
  intro s i rest hr h
  rw [step, hr]
  simp only [fetchInstr_of_decode h]

end Sys2Proof.Machine
end

section
/-! PROOFS. HALT and PRN (spec/41_system_halt_prn.md R80, R81): what each changes and leaves, the faults of PRN, and the
text the sink makes of an emitted byte. -/

namespace Sys2Proof.Machine

/-! What an outcome says of any instruction -/

/-- An instruction that completes is what its meaning answers. -/
theorem Completes.exec_eq {i : Instr} {s t : State} (h : Completes i s t) : exec i s = .next t :=
  exec_eq_next_iff.mpr (.inl h)

/-- A cause that an instruction raises is fault entry (R116). -/
theorem FaultsWith.raises {i : Instr} {s : State} {c : Cause} (h : FaultsWith i s c) : Raises (exec i s) c s :=
  ⟨_, exec_eq_next_iff.mpr (.inr ⟨c, h, rfl⟩), rfl, rfl⟩

/-- A step at a row's byte, with an operand above the top of memory, raises AddressError(operand, 256) (R73, decision
D4). -/
theorem step_raises_of_short {s : State} (o : Opcode) (hr : s.run = .running) (hb : s.opcodeByte = o.byte)
    (hpc : s.pc.toNat ≤ 255) (hshort : 255 < s.pc.toNat + o.operandCount) :
    Raises (step s) (.addressError .operand 256) s :=
  step_raises_of_fetchInstr hr (fetchInstr_of_short hpc (ofByte_eq_some.mpr hb.symm) hshort)

/-! PRN and HALT -/

/-- Settles O21: with a register index PRN completes, with any other byte its operand is the bad index, and at 255 the
fetch of the operand leaves memory. -/
theorem prnEmitsTheRegister : Obligations.PrnEmitsTheRegister := by
  refine ⟨fun op1 rest => decode_encode (.prn op1) rest, fun s op1 => ⟨fun h => ?_, fun h8 => ?_, fun hr hb hpc => ?_⟩⟩
  · have hi : Completes (.prn op1) s ((s.emit (s.readReg ⟨op1.toNat, h⟩)).advance 1) := .prn h
    have hfit (hle : s.pc.toNat ≤ 254) : s.pc.toNat + 1 < 256 := by omega
    exact ⟨_, hi.exec_eq, rfl, rfl, fun hle => hi.pc (hfit hle), fun _ => rfl, rfl⟩
  · exact FaultsWith.raises (.badIndex ((badIndex?_of_one rfl).mpr ⟨h8, rfl⟩))
  · refine step_raises_of_short .prn hr hb hpc.le ?_
    rw [hpc]
    decide

/-- Settles O19: HALT completes in every state, and sets `run` only. -/
theorem haltStopsAndFreezes : Obligations.HaltStopsAndFreezes :=
  ⟨decode_encode .halt, fun _ => ⟨_, Completes.halt.exec_eq, rfl, rfl, rfl, fun _ => rfl, rfl⟩⟩

/-! The text of a PRN byte -/

/-- The three lengths of a byte's numeral, and the values that have each (decision D16). -/
theorem decimalDigits_cases (v : Byte) :
    (v.toNat < 10 ∧ decimalDigits v = [v.toNat]) ∨
    (10 ≤ v.toNat ∧ v.toNat < 100 ∧ decimalDigits v = [v.toNat / 10, v.toNat % 10]) ∨
    (100 ≤ v.toNat ∧ decimalDigits v = [v.toNat / 100, v.toNat / 10 % 10, v.toNat % 10]) := by
  by_cases h10 : v.toNat < 10
  · exact .inl ⟨h10, if_pos h10⟩
  · by_cases h100 : v.toNat < 100
    · exact .inr (.inl ⟨Nat.le_of_not_lt h10, h100, (if_neg h10).trans (if_pos h100)⟩)
    · exact .inr (.inr ⟨Nat.le_of_not_lt h100, (if_neg h10).trans (if_neg h100)⟩)

theorem decimalDigits_ne_nil (v : Byte) : decimalDigits v ≠ [] := by
  rcases decimalDigits_cases v with ⟨-, hd⟩ | ⟨-, -, hd⟩ | ⟨-, hd⟩ <;> simp [hd]

/-- Each digit is one: the leading one because a byte is below 1000. -/
theorem lt_ten_of_mem_decimalDigits {v : Byte} {d : Nat} (h : d ∈ decimalDigits v) : d < 10 := by
  have hv := v.isLt
  rcases decimalDigits_cases v with ⟨hlt, hd⟩ | ⟨-, hlt, hd⟩ | ⟨-, hd⟩ <;>
    simp only [hd, List.mem_cons, List.not_mem_nil, or_false] at h <;> omega

/-- The digits have the byte's value. -/
theorem foldl_decimalDigits (v : Byte) : (decimalDigits v).foldl (fun n d => 10 * n + d) 0 = v.toNat := by
  rcases decimalDigits_cases v with ⟨-, hd⟩ | ⟨-, -, hd⟩ | ⟨-, hd⟩ <;>
    simp only [hd, List.foldl_cons, List.foldl_nil] <;> omega

/-- A numeral of more than one digit does not begin with 0. -/
theorem decimalDigits_length_eq_one_or_head?_ne_zero (v : Byte) :
    (decimalDigits v).length = 1 ∨ (decimalDigits v).head? ≠ some 0 := by
  rcases decimalDigits_cases v with ⟨-, hd⟩ | ⟨h10, -, hd⟩ | ⟨h100, hd⟩
  · exact .inl (by rw [hd]; rfl)
  · have hlead : v.toNat / 10 ≠ 0 := by omega
    exact .inr (by simpa [hd] using hlead)
  · have hlead : v.toNat / 100 ≠ 0 := by omega
    exact .inr (by simpa [hd] using hlead)

/-- One more emitted byte is one more line, after the others (R81). -/
theorem renderOut_concat (out : List Byte) (v : Byte) : renderOut (out ++ [v]) = renderOut out ++ renderLine v := by
  rw [renderOut, List.flatMap_append, List.flatMap_singleton]
  rfl

/-- Settles O13, by the laws of the byte's decimal digits. -/
theorem prnTextIsDecimalLine : Obligations.PrnTextIsDecimalLine :=
  ⟨fun v => ⟨rfl, decimalDigits_ne_nil v, fun _ => lt_ten_of_mem_decimalDigits, foldl_decimalDigits v,
    decimalDigits_length_eq_one_or_head?_ne_zero v⟩, renderOut_concat⟩

end Sys2Proof.Machine
end

section
/-! PROOFS. LDI (spec/42_load_immediate.md R85): what it changes and leaves, and its faults. -/

namespace Sys2Proof.Machine

/-- Settles O20: with a register index LDI completes, with any other first operand that operand is the bad index, and at
254 and 255 the fetch of its two operands leaves memory. -/
theorem ldiLoadsTheImmediate : Obligations.LdiLoadsTheImmediate := by
  refine ⟨fun op1 op2 rest => decode_encode (.ldi op1 op2) rest,
    fun s op1 op2 => ⟨fun h => ?_, fun h8 => ?_, fun hr hb hpc => ?_⟩⟩
  · have hi : Completes (.ldi op1 op2) s ((s.writeReg ⟨op1.toNat, h⟩ op2.toNat).advance 2) := .ldi h
    have hload : (s.writeReg ⟨op1.toNat, h⟩ op2.toNat).readReg ⟨op1.toNat, h⟩ = op2 := by
      rw [readReg_writeReg_same, ofInt_toNat]
    have hfit (hle : s.pc.toNat ≤ 253) : s.pc.toNat + 2 < 256 := by omega
    exact ⟨_, hi.exec_eq, hload, hi.regs, fun hle => hi.pc (hfit hle), fun _ => rfl, rfl, rfl⟩
  · exact FaultsWith.raises (.badIndex ((badIndex?_of_one rfl).mpr ⟨h8, rfl⟩))
  · have hcount : Opcode.ldi.operandCount = 2 := rfl
    exact step_raises_of_short .ldi hr hb (by omega) (by omega)

end Sys2Proof.Machine
end

section
/-! PROOFS. PUSH and POP (spec/43_stack_push_pop.md R90 to R92): what each changes and leaves, the faults of each, and that
the one followed by the other restores every register. -/

namespace Sys2Proof.Machine

open Sys2Proof.Config (spIndex)

/-- A bad operand of an instruction with one register operand is the cause it raises (R74). -/
theorem raises_registerIndexError {i : Instr} {k : Byte} (hi : i.registerOperands = [k]) (h8 : 8 ≤ k.toNat) (s : State) :
    Raises (exec i s) (.registerIndexError k) s :=
  FaultsWith.raises (.badIndex ((badIndex?_of_one hi).mpr ⟨h8, rfl⟩))

/-- From any SP but 0 the cell PUSH addresses is the one below the old SP (R33, R90). -/
theorem decSp_stackAddress {s : State} (hsp : s.sp ≠ 0) : s.decSp.stackAddress = s.sp.toNat - 1 :=
  Nat.eq_sub_of_add_eq (decSp_sp_toNat hsp)

/-! What PUSH and POP leave in memory, in the register and in SP -/

/-- SP after a PUSH (R90). -/
theorem Completes.sp_of_push {op1 : Byte} {s t : State} (h : Completes (.push op1) s t) : t.sp = s.sp - 1 := by
  cases h with
  | push h1 hsp => exact decSp_sp s

/-- The byte a PUSH stores: PUSH R7 stores the decremented SP (R90, decision D13). -/
theorem Completes.readByte_of_push {op1 : Byte} {s t : State} (h : Completes (.push op1) s t) (h1 : op1.toNat < 8) :
    t.mem.readByte t.sp.toNat = if op1.toNat = 7 then s.sp - 1 else s.readReg ⟨op1.toNat, h1⟩ := by
  obtain ⟨_, hb⟩ := h.readByte_sp_of_push
  rw [hb, decSp_readReg_operand s h1, decSp_sp]

/-- SP after a POP: POP R7 increments the byte it has loaded (R91, decision D13). -/
theorem Completes.sp_of_pop {op1 : Byte} {s t : State} (h : Completes (.pop op1) s t) :
    t.sp = (if op1.toNat = 7 then s.mem.readByte s.sp.toNat else s.sp) + 1 := by
  cases h with
  | pop h1 hsp =>
    rw [advance_sp, incSp_sp]
    split
    · next h7 =>
      have hd : (⟨op1.toNat, h1⟩ : RegIndex) = spIndex := Fin.ext h7
      rw [hd, writeReg_sp, ofInt_toNat]
      rfl
    · next h7 => rw [writeReg_sp_of_ne _ _ (fun e => h7 (congrArg Fin.val e))]

/-- POP of another register than R7 loads it from the cell at the old SP (R91). -/
theorem Completes.readReg_of_pop {op1 : Byte} {s t : State} (h : Completes (.pop op1) s t) (h1 : op1.toNat < 8)
    (h7 : op1.toNat ≠ 7) : t.readReg ⟨op1.toNat, h1⟩ = s.mem.readByte s.sp.toNat := by
  cases h with
  | pop _ hsp =>
    rw [advance_readReg, incSp_readReg_ne _ (fun e => h7 (congrArg Fin.val e)), readReg_writeReg_same, ofInt_toNat]
    rfl

/-- POP leaves memory, the popped cell included (R91). -/
theorem Completes.mem_of_pop {op1 : Byte} {s t : State} (h : Completes (.pop op1) s t) : t.mem = s.mem := by
  cases h with
  | pop h1 hsp => rfl

/-! The whole of PUSH and of POP -/

/-- Settles O26: with a register index PUSH completes from any SP but 0 and raises its boundary cause from 0, with any
other byte its operand is the bad index, and at 255 the fetch of the operand leaves memory. -/
theorem pushStoresBelowTheStackPointer : Obligations.PushStoresBelowTheStackPointer := by
  refine ⟨fun op1 rest => decode_encode (.push op1) rest,
    fun s op1 => ⟨fun h hsp => ?_, fun h8 => ?_, fun h hsp => ?_, fun hr hb hpc => ?_⟩⟩
  · have hi := Completes.push h hsp
    have haddr := decSp_stackAddress hsp
    have hfit (hle : s.pc.toNat ≤ 254) : s.pc.toNat + 1 < 256 := by omega
    exact ⟨_, hi.exec_eq, haddr, haddr, hi.readByte_of_push h, hi.sameMemoryExcept, hi.regs,
      fun hle => hi.pc (hfit hle), rfl, rfl⟩
  · exact raises_registerIndexError rfl h8 s
  · exact FaultsWith.raises (.push h hsp)
  · have hcount : Opcode.push.operandCount = 1 := rfl
    exact step_raises_of_short .push hr hb (by omega) (by omega)

/-- Settles O27: with a register index POP completes from any SP but 255 and raises its boundary cause from 255, with any
other byte its operand is the bad index, and at 255 the fetch of the operand leaves memory. -/
theorem popLoadsFromTheStackPointer : Obligations.PopLoadsFromTheStackPointer := by
  refine ⟨fun op1 rest => decode_encode (.pop op1) rest,
    fun s op1 => ⟨fun h hsp => ?_, fun h8 => ?_, fun h hsp => ?_, fun hr hb hpc => ?_⟩⟩
  · have hi := Completes.pop h hsp
    have hfit (hle : s.pc.toNat ≤ 254) : s.pc.toNat + 1 < 256 := by omega
    refine ⟨_, hi.exec_eq, fun h7 => ⟨hi.readReg_of_pop h h7, ?_⟩, fun h7 => ?_, hi.regs, fun _ => rfl,
      fun hle => hi.pc (hfit hle), rfl, rfl⟩
    · rw [hi.sp_of_pop, if_neg h7]
      bv_omega
    · rw [hi.sp_of_pop, if_pos h7, BitVec.toNat_add]
      rfl
  · exact raises_registerIndexError rfl h8 s
  · exact FaultsWith.raises (.pop h hsp)
  · have hcount : Opcode.pop.operandCount = 1 := rfl
    exact step_raises_of_short .pop hr hb (by omega) (by omega)

/-! PUSH followed by POP -/

/-- POP of the register just pushed brings SP back: it increments the decremented SP, for R7 the one that was stored
(R92, conflict C9). -/
theorem Completes.sp_of_push_pop {op : Byte} {s t u : State} (hpush : Completes (.push op) s t)
    (hpop : Completes (.pop op) t u) (h : op.toNat < 8) : u.sp = s.sp := by
  have hdec : (if op.toNat = 7 then t.mem.readByte t.sp.toNat else t.sp) = s.sp - 1 := by
    split
    · next h7 => rw [hpush.readByte_of_push h, if_pos h7]
    · exact hpush.sp_of_push
  rw [hpop.sp_of_pop, hdec, BitVec.sub_add_cancel]

/-- POP of the register just pushed leaves every register as before the PUSH (R92). -/
theorem Completes.regs_of_push_pop {op : Byte} {s t u : State} (hpush : Completes (.push op) s t)
    (hpop : Completes (.pop op) t u) (h : op.toNat < 8) : SameRegistersExcept [] s u := by
  intro r _
  by_cases hsp : r = spIndex
  · subst hsp
    exact hpush.sp_of_push_pop hpop h
  · have h7 : r.val ≠ 7 := fun e => hsp (Fin.ext e)
    by_cases hop : r = ⟨op.toNat, h⟩
    · subst hop
      rw [hpop.readReg_of_pop h h7, hpush.readByte_of_push h, if_neg h7]
    · have hne : r.val ≠ op.toNat := fun e => hop (Fin.ext e)
      have hkept : r.val ∉ [op.toNat, 7] := by simp [hne, h7]
      have hkept' : r.val ∉ [7] := by simp [h7]
      exact (hpop.regs r hkept).trans (hpush.regs r hkept')

/-- A step at a row's byte, with its operands in memory, is the instruction that completes with them (R57, R70). -/
theorem step_of_completes {s t : State} (o : Opcode) (hr : s.run = .running) (hb : s.opcodeByte = o.byte)
    (hfit : s.pc.toNat + o.operandCount < 256)
    (hi : Completes (o.assemble s.operandByte (s.mem.readByte (s.pc.toNat + 2))) s t) : step s = .next t :=
  step_eq_next_iff.mpr ⟨hr, .inr ⟨_, fetchInstr_of_fits (ofByte_eq_some.mpr hb.symm) (Nat.le_of_lt_succ hfit), hi⟩⟩

/-- Settles O45: the PUSH leaves the bytes of the POP where they are, so the second step completes that POP. -/
theorem pushThenPopRestores : Obligations.PushThenPopRestores := by
  intro s op h hr hsp hpc hb hop hb' hop' hcell hcell'
  obtain ⟨t, hpush⟩ : ∃ t, Completes (.push op) s t := ⟨_, .push h hsp⟩
  have hfit : s.pc.toNat + 1 < 256 := by omega
  have hstep : step s = .next t := step_of_completes .push hr hb hfit (hop ▸ hpush)
  have htr : t.run = .running := hpush.run_eq.trans hr
  have htpc : t.pc.toNat = s.pc.toNat + 2 := hpush.pc hfit
  have hmem : SameMemoryExcept (s.sp.toNat - 1) s t := decSp_stackAddress hsp ▸ hpush.sameMemoryExcept
  have htb : t.opcodeByte = Opcode.pop.byte := by rw [State.opcodeByte, htpc, hmem _ hcell.symm, hb']; rfl
  have htop : t.operandByte = op := by rw [State.operandByte, htpc, hmem _ hcell'.symm, hop']
  have htsp : t.sp ≠ 255 := by
    rw [hpush.sp_of_push]
    bv_omega
  obtain ⟨u, hpop⟩ : ∃ u, Completes (.pop op) t u := ⟨_, .pop h htsp⟩
  have htfit : t.pc.toNat + 1 < 256 := by omega
  have hstep' : step t = .next u := step_of_completes .pop htr htb htfit (htop ▸ hpop)
  have hupc : u.pc.toNat = t.pc.toNat + 2 := hpop.pc htfit
  have hregs : SameRegistersExcept [] s u := hpush.regs_of_push_pop hpop h
  exact ⟨t, u, hstep, hstep', hpop.run_eq.trans htr, hregs _ List.not_mem_nil, hpush.sp_of_push_pop hpop h, by omega,
    hregs, fun a ha => hpop.mem_of_pop ▸ hmem a ha⟩

end Sys2Proof.Machine
end

section
/-! PROOFS. CALL and RET (spec/44_call_ret.md R95 to R97): what each changes and leaves, the faults of each, and that a
RET with the stack as on entry resumes after its CALL. -/

namespace Sys2Proof.Machine

/-! What CALL leaves in SP, in pc and in memory -/

/-- SP after a CALL, which from any SP but 0 does not wrap (R95, decision D10). -/
theorem Completes.sp_of_call {op1 : Byte} {s t : State} (h : Completes (.call op1) s t) :
    t.sp = s.sp - 1 ∧ t.sp ≠ 255 := by
  cases h with
  | call h1 ha hsp =>
    rw [jump_sp]
    have hdec : s.decSp.sp ≠ 255 := by
      rw [decSp_sp]
      bv_omega
    exact ⟨decSp_sp s, hdec⟩

/-- Where CALL goes: CALL R7 jumps to the decremented SP (R95, decision D13). -/
theorem Completes.pc_of_call {op1 : Byte} {s t : State} (h : Completes (.call op1) s t) (h1 : op1.toNat < 8) :
    t.pc.toNat = (if op1.toNat = 7 then s.sp - 1 else s.readReg ⟨op1.toNat, h1⟩).toNat := by
  cases h with
  | call _ ha hsp => rw [jump_pc_toNat, decSp_readReg_operand s h1, decSp_sp]

/-- The byte a CALL leaves at SP has the value of the return address: it was checked to be a byte (R95, decision D8). -/
theorem Completes.toNat_readByte_sp_of_call {op1 : Byte} {s t : State} (h : Completes (.call op1) s t) :
    (t.mem.readByte t.sp.toNat).toNat = s.pc.toNat + 2 := by
  rw [h.readByte_sp_of_call]
  cases h with
  | call h1 ha hsp =>
    rw [BitVec.toNat_ofNat]
    exact Nat.mod_eq_of_lt (Nat.lt_succ_of_le ha)

/-! What RET leaves in pc and in SP -/

/-- RET takes pc from the cell at the old SP (R96). -/
theorem Completes.pc_of_ret {s t : State} (h : Completes .ret s t) :
    t.pc.toNat = (s.mem.readByte s.sp.toNat).toNat := by
  cases h with
  | ret hsp => exact jump_pc_toNat s _

/-- SP after a RET (R96). -/
theorem Completes.sp_of_ret {s t : State} (h : Completes .ret s t) : t.sp = s.sp + 1 := by
  cases h with
  | ret hsp => exact incSp_sp _

/-! The whole of CALL and of RET -/

/-- Settles O28: with a register index CALL completes where its return address is a byte and SP is not 0, and raises the
cause of the first of the two that fails; with any other byte its operand is the bad index, and at 255 the fetch of the
operand leaves memory. -/
theorem callPushesAndJumps : Obligations.CallPushesAndJumps := by
  refine ⟨fun op1 rest => decode_encode (.call op1) rest, fun s op1 =>
    ⟨fun h hpc hsp => ?_, fun h8 => ?_, fun h hpc => ?_, fun h hpc hsp => ?_, fun hr hb hpc => ?_⟩⟩
  · have hi := Completes.call h (Nat.add_le_add_right hpc 2) hsp
    have haddr := decSp_stackAddress hsp
    exact ⟨_, hi.exec_eq, haddr, haddr, hi.toNat_readByte_sp_of_call, hi.sameMemoryExcept, hi.regs, hi.pc_of_call h,
      rfl, rfl⟩
  · exact raises_registerIndexError rfl h8 s
  · exact FaultsWith.raises (.returnAddress h (Nat.add_lt_add_right hpc 2))
  · exact FaultsWith.raises (.call h (Nat.add_le_add_right hpc 2) hsp)
  · have hcount : Opcode.call.operandCount = 1 := rfl
    exact step_raises_of_short .call hr hb (by omega) (by omega)

/-- Settles O29: RET completes from any SP but 255, where the increment does not wrap, and raises its boundary cause
from 255. -/
theorem retPopsTheProgramCounter : Obligations.RetPopsTheProgramCounter := by
  refine ⟨decode_encode .ret, fun s => ⟨fun hsp => ?_, fun hsp => FaultsWith.raises (.ret hsp)⟩⟩
  have hi := Completes.ret hsp
  have hinc : (s.sp + 1).toNat = s.sp.toNat + 1 := by bv_omega
  exact ⟨_, hi.exec_eq, hi.pc_of_ret, hi.sp_of_ret ▸ hinc, hi.regs, fun _ => rfl, rfl, rfl⟩

/-! CALL and its RET -/

/-- Settles O46: the CALL leaves its return address at an SP that is not 255, so from the same SP and cell the RET
completes, takes pc from that cell and brings SP back. -/
theorem retResumesAfterItsCall : Obligations.RetResumesAfterItsCall := by
  rintro s t u op hr hb rfl hstep htr hur hupc hub husp hcell
  have ht (c : Cause) : t.run ≠ .faulted c := by simp [htr]
  have hcall : Completes (.call s.operandByte) s t := completes_row_of_step (o := .call) hstep ht hb
  obtain ⟨htsp, htop⟩ := hcall.sp_of_call
  obtain ⟨v, hret⟩ : ∃ v, Completes .ret u v := ⟨_, .ret (husp ▸ htop)⟩
  have hstep' : step u = .next v := step_of_completes .ret hur hub (Nat.lt_succ_of_le hupc) hret
  refine ⟨v, hstep', hret.run_eq.trans hur, ?_, ?_⟩
  · rw [hret.pc_of_ret, hcell, hcall.toNat_readByte_sp_of_call]
  · rw [hret.sp_of_ret, husp, htsp, BitVec.sub_add_cancel]

end Sys2Proof.Machine
end

section
/-! PROOFS. Runs (spec/60_exceptions.md R105, R110 to R114): the invariant holds all along a run, so no run records a
cause that the spec's tables do not allow. -/

namespace Sys2Proof.Machine

/-- A run from a state that meets the invariant stays in it. -/
theorem StepsTo.inv {n : Nat} {s t : State} (h : StepsTo n s t) (hs : s.Inv) : t.Inv := by
  induction n generalizing s with
  | zero =>
    cases h
    exact hs
  | succ n ih =>
    obtain ⟨u, hstep, hut⟩ := h
    exact ih hut (everyStepKeepsTheInvariant s u hs hstep)

/-- A cause recorded in a state that meets the invariant is one the spec allows (R18, R110). -/
theorem State.Inv.legal_of_faulted {s : State} {c : Cause} (hs : s.Inv) (hc : s.run = .faulted c) : c.legal := by
  have hlegal := hs.cause
  rwa [hc] at hlegal

/-- Settles O43: the run ends in a state that meets the invariant, and the invariant allows no
UnsupportedOperationError. -/
theorem noRunRecordsAnUnsupportedOperation : Obligations.NoRunRecordsAnUnsupportedOperation := by
  intro n s t hs hrun
  have ht : t.Inv := hrun.inv hs
  exact ⟨ht.legal_of_faulted, fun _ => ht.legal_of_faulted⟩

end Sys2Proof.Machine
end

section
/-! PROOFS. The ALU (spec/45_alu.md R100 to R106): its three functions and their laws, and, once for the three, what ADD, SUB
and MLT change and leave, and their faults. -/

namespace Sys2Proof.Machine

/-! The ALU's functions -/

/-- The ALU's result is the exact integer result modulo 256, as the non-negative residue (R100). -/
theorem toNat_alu (o : AluOp) (a b : Byte) : ((alu o a b).toNat : Int) = aluExact o a b % 256 := by
  rw [alu, BitVec.toNat_ofInt]
  omega

theorem toNat_alu_add (a b : Byte) : (alu .add a b).toNat = (a.toNat + b.toNat) % 256 := by
  have hexact : ((alu .add a b).toNat : Int) = ((a.toNat : Int) + b.toNat) % 256 := toNat_alu .add a b
  exact_mod_cast hexact

theorem toNat_alu_sub (a b : Byte) : ((alu .sub a b).toNat : Int) = ((a.toNat : Int) - b.toNat) % 256 :=
  toNat_alu .sub a b

theorem toNat_alu_mul (a b : Byte) : (alu .mul a b).toNat = (a.toNat * b.toNat) % 256 := by
  have hexact : ((alu .mul a b).toNat : Int) = ((a.toNat : Int) * b.toNat) % 256 := toNat_alu .mul a b
  exact_mod_cast hexact

/-- Where the subtraction borrows, the difference is 256 more than the exact one. -/
theorem toNat_alu_sub_of_lt {a b : Byte} (h : a.toNat < b.toNat) :
    (alu .sub a b).toNat = a.toNat + 256 - b.toNat := by
  have hsub := toNat_alu_sub a b
  omega

/-- Settles O17, by the residue of each exact result. -/
theorem aluResultsAreModulo256 : Obligations.AluResultsAreModulo256 := fun a b =>
  ⟨toNat_alu_add a b, toNat_alu_sub a b, toNat_alu_sub_of_lt, toNat_alu_mul a b⟩

/-! The ALU is the arithmetic of bytes -/

theorem alu_add (a b : Byte) : alu .add a b = a + b :=
  BitVec.eq_of_toNat_eq ((toNat_alu_add a b).trans (BitVec.toNat_add a b).symm)

theorem alu_mul (a b : Byte) : alu .mul a b = a * b :=
  BitVec.eq_of_toNat_eq ((toNat_alu_mul a b).trans (BitVec.toNat_mul a b).symm)

theorem alu_sub (a b : Byte) : alu .sub a b = a - b := by
  have hsub := toNat_alu_sub a b
  bv_omega

/-- Settles O18: the ALU computes in the ring of bytes, where the signed reading is that of `BitVec.toInt`. -/
theorem aluRingLaws : Obligations.AluRingLaws := by
  intro a b
  simp only [alu_add, alu_sub, alu_mul]
  refine ⟨BitVec.add_comm a b, BitVec.mul_comm a b, BitVec.add_sub_cancel a b, fun _ => ?_, BitVec.toInt_add a b,
    BitVec.toInt_sub, BitVec.toInt_mul a b⟩
  have hneg : -b = BitVec.ofNat 8 (256 - b.toNat) := rfl
  rw [BitVec.sub_eq_add_neg, hneg]

/-! ADD, SUB and MLT, once for the three -/

/-- The row whose instruction asks the ALU for an operation (R101 to R103, conflict C5). -/
def AluOp.opcode : AluOp → Opcode
  | .add => .add
  | .sub => .sub
  | .mul => .mlt

theorem AluOp.operandCount_opcode (o : AluOp) : o.opcode.operandCount = 2 := by cases o <;> rfl

theorem AluOp.registerOperands_assemble (o : AluOp) (op1 op2 : Byte) :
    (o.opcode.assemble op1 op2).registerOperands = [op1, op2] := by
  cases o <;> rfl

/-- With two register indices the instruction completes, having read both before it writes (R106). -/
theorem completes_arith (o : AluOp) (s : State) {op1 op2 : Byte} (h1 : op1.toNat < 8) (h2 : op2.toNat < 8) :
    Completes (o.opcode.assemble op1 op2) s ((s.writeReg ⟨op1.toNat, h1⟩
      (alu o (s.readReg ⟨op1.toNat, h1⟩) (s.readReg ⟨op2.toNat, h2⟩)).toNat).advance 2) := by
  cases o with
  | add => exact .add h1 h2
  | sub => exact .sub h1 h2
  | mul => exact .mlt h1 h2

/-- The first register gets the ALU's result of the two old values, pc moves by 3, and nothing else changes (R101 to
R103). -/
theorem exec_arith (o : AluOp) (s : State) {op1 op2 : Byte} (h1 : op1.toNat < 8) (h2 : op2.toNat < 8) :
    ∃ t, exec (o.opcode.assemble op1 op2) s = .next t ∧
      t.readReg ⟨op1.toNat, h1⟩ = alu o (s.readReg ⟨op1.toNat, h1⟩) (s.readReg ⟨op2.toNat, h2⟩) ∧
      SameRegistersExcept [op1.toNat] s t ∧ (s.pc.toNat ≤ 253 → t.pc.toNat = s.pc.toNat + 3) ∧
      SameMemory s t ∧ t.run = s.run ∧ t.out = s.out := by
  refine ⟨_, (completes_arith o s h1 h2).exec_eq, ?_, ?_, fun hpc => ?_, fun _ => rfl, rfl, rfl⟩
  · rw [advance_readReg, readReg_writeReg_same, ofInt_toNat]
  · exact sameRegistersExcept_writeReg s _ (.head _)
  · exact advance_pc_of_fits rfl (by omega)

/-- The first operand above 7 is the cause raised, and at 254 and 255 the fetch of the two operands leaves memory (R73,
R74, decisions D4, D12). -/
theorem arith_faults (o : AluOp) (s : State) (op1 op2 : Byte) :
    (8 ≤ op1.toNat → Raises (exec (o.opcode.assemble op1 op2) s) (.registerIndexError op1) s) ∧
    (op1.toNat < 8 → 8 ≤ op2.toNat → Raises (exec (o.opcode.assemble op1 op2) s) (.registerIndexError op2) s) ∧
    (s.run = .running → s.opcodeByte = o.opcode.byte → (s.pc.toNat = 254 ∨ s.pc.toNat = 255) →
      Raises (step s) (.addressError .operand 256) s) := by
  have hbad (k : Byte) := badIndex?_of_two (k := k) (o.registerOperands_assemble op1 op2)
  refine ⟨fun h8 => ?_, fun h1 h8 => ?_, fun hr hb hpc => ?_⟩
  · exact FaultsWith.raises (.badIndex ((hbad op1).mpr (.inl ⟨h8, rfl⟩)))
  · exact FaultsWith.raises (.badIndex ((hbad op2).mpr (.inr ⟨h1, h8, rfl⟩)))
  · have hcount := o.operandCount_opcode
    exact step_raises_of_short o.opcode hr hb (by omega) (by omega)

/-- Settles O22: ADD is the row of the ALU's sum. -/
theorem addWritesTheSum : Obligations.AddWritesTheSum := by
  refine ⟨fun op1 op2 rest => decode_encode (.add op1 op2) rest,
    fun s op1 op2 => ⟨fun h1 h2 => ?_, arith_faults .add s op1 op2⟩⟩
  obtain ⟨t, ht, hval, hframe⟩ := exec_arith .add s h1 h2
  exact ⟨t, ht, hval ▸ toNat_alu_add _ _, hframe⟩

/-- Settles O23: SUB is the row of the ALU's difference. -/
theorem subWritesTheDifference : Obligations.SubWritesTheDifference := by
  refine ⟨fun op1 op2 rest => decode_encode (.sub op1 op2) rest,
    fun s op1 op2 => ⟨fun h1 h2 => ?_, arith_faults .sub s op1 op2⟩⟩
  obtain ⟨t, ht, hval, hframe⟩ := exec_arith .sub s h1 h2
  exact ⟨t, ht, hval ▸ toNat_alu_sub _ _, hframe⟩

/-- Settles O24: MLT is the row of the ALU's product. -/
theorem mltWritesTheLowProduct : Obligations.MltWritesTheLowProduct := by
  refine ⟨fun op1 op2 rest => decode_encode (.mlt op1 op2) rest,
    fun s op1 op2 => ⟨fun h1 h2 => ?_, arith_faults .mul s op1 op2⟩⟩
  obtain ⟨t, ht, hval, hframe⟩ := exec_arith .mul s h1 h2
  exact ⟨t, ht, hval ▸ toNat_alu_mul _ _, hframe⟩

/-- An instruction that names one register twice leaves in it the ALU's result of its old value, taken twice (R106). -/
theorem exec_arith_self (o : AluOp) (s : State) {op : Byte} (h : op.toNat < 8) :
    ∃ t, exec (o.opcode.assemble op op) s = .next t ∧
      t.readReg ⟨op.toNat, h⟩ = alu o (s.readReg ⟨op.toNat, h⟩) (s.readReg ⟨op.toNat, h⟩) := by
  obtain ⟨t, ht, hval, -⟩ := exec_arith o s h h
  exact ⟨t, ht, hval⟩

/-- Settles O25, by the case of equal operands. -/
theorem arithmeticReadsBeforeItWrites : Obligations.ArithmeticReadsBeforeItWrites := fun s _ h =>
  ⟨exec_arith_self .add s h, exec_arith_self .sub s h, exec_arith_self .mul s h⟩

end Sys2Proof.Machine
end

section
/-! PROOFS. Faults and the ends of a run (spec/60_exceptions.md R110 to R121): fault entry changes the run state alone, and
the numbers the surrounding software reads off the run state. -/

namespace Sys2Proof.Machine

/-- Settles O38: an instruction that completes leaves no Faulted state, so the step is fault entry, which records the
cause and changes nothing else. -/
theorem faultsArePrecise : Obligations.FaultsArePrecise := by
  intro s t c h ht
  obtain ⟨hr, ⟨d, -, rfl⟩ | ⟨i, -, hi⟩⟩ := step_eq_next_iff.mp h
  · obtain rfl : d = c := RunState.faulted.inj ht
    rfl
  · exact absurd ht (hi.run_ne_faulted hr c)

/-- The open exit status is not that of a halted run (R121, decision D15). -/
theorem exitStatusExecFault_ne_zero : Config.exitStatusExecFault ≠ 0 := Nat.succ_ne_zero _

/-- Every cause but an unknown opcode has the open exit status (R121, decision D15). -/
theorem exitStatus_faulted_of_code_ne_one {c : Cause} (h : c.code ≠ 1) :
    (RunState.faulted c).exitStatus = some Config.exitStatusExecFault := by
  cases c with
  | unknownOpcode => exact absurd rfl h
  | addressError | registerIndexError | unsupportedOperation => rfl

/-- Settles O12: the numbers are the rows of the tables of R110, R120 and R121. -/
theorem statusCodesAndExitStatus : Obligations.StatusCodesAndExitStatus :=
  ⟨rfl, rfl, fun _ => rfl, fun _ => rfl, fun _ _ => rfl, fun _ => rfl, rfl, rfl, rfl, fun _ => rfl,
    fun _ hc => ⟨exitStatus_faulted_of_code_ne_one hc, exitStatusExecFault_ne_zero⟩⟩

end Sys2Proof.Machine
end

section
/-! PROOFS. The loader (spec/70_reset_and_hazards.md R130, R131): what loading a sequence of bytes puts in memory and what it
leaves. -/

namespace Sys2Proof.Machine

open Sys2Proof.Config (memSize)

/-! One load -/

theorem load_readByte_same (s : State) {a : Nat} (ha : a < memSize) (v : Byte) :
    (s.load a v).mem.readByte a = v := by
  simp only [State.load, if_pos ha, readByte_writeByte_same]

/-- A load outside the address space changes no cell at all (R23). -/
theorem load_readByte_ne (s : State) {a b : Nat} (v : Byte) (h : b ≠ a) :
    (s.load a v).mem.readByte b = s.mem.readByte b := by
  unfold State.load
  split
  · exact readByte_writeByte_ne s.mem v h
  · rfl

/-! A sequence of bytes loaded from an address upward -/

/-- Everything but memory stays (R131). -/
theorem loadBytes_frame (s : State) (a : Nat) (vs : List Byte) :
    (s.loadBytes a vs).regs = s.regs ∧ (s.loadBytes a vs).pc = s.pc ∧ (s.loadBytes a vs).run = s.run ∧
      (s.loadBytes a vs).out = s.out := by
  induction vs generalizing s a with
  | nil => exact ⟨rfl, rfl, rfl, rfl⟩
  | cons v vs ih => simpa only [State.loadBytes, load_regs, load_pc, load_run, load_out] using ih (s.load a v) (a + 1)

/-- The cells below the first address and past the last byte stay (R131). -/
theorem loadBytes_readByte_outside (s : State) {a b : Nat} (vs : List Byte) (h : b < a ∨ a + vs.length ≤ b) :
    (s.loadBytes a vs).mem.readByte b = s.mem.readByte b := by
  induction vs generalizing s a with
  | nil => rfl
  | cons v vs ih =>
    rw [List.length_cons] at h
    calc ((s.load a v).loadBytes (a + 1) vs).mem.readByte b
        = (s.load a v).mem.readByte b := ih _ (by omega)
      _ = s.mem.readByte b := load_readByte_ne s v (by omega)

/-- Byte `i` stands `i` cells above the first address: the loads after its own go to higher addresses (R131). -/
theorem loadBytes_readByte_inside (s : State) {a : Nat} {vs : List Byte} (hfit : a + vs.length ≤ memSize) (i : Nat)
    (hi : i < vs.length) : (s.loadBytes a vs).mem.readByte (a + i) = vs[i] := by
  induction vs generalizing s a i with
  | nil => exact absurd hi (Nat.not_lt_zero i)
  | cons v vs ih =>
    rw [List.length_cons] at hfit hi
    cases i with
    | zero =>
      calc ((s.load a v).loadBytes (a + 1) vs).mem.readByte a
          = (s.load a v).mem.readByte a := loadBytes_readByte_outside _ vs (.inl (Nat.lt_succ_self a))
        _ = v := load_readByte_same s (by omega) v
    | succ i =>
      have hnext : a + (i + 1) = a + 1 + i := by omega
      rw [hnext]
      exact ih (s.load a v) (by omega) i (Nat.lt_of_succ_lt_succ hi)

/-! The loader's contract -/

/-- Settles O11: a program that fits is the sequence of its bytes loaded from 0 upward; a longer one is refused. -/
theorem loaderPutsProgramAtZero : Obligations.LoaderPutsProgramAtZero := by
  refine fun s program => ⟨fun hlong => if_neg (Nat.not_le_of_lt hlong), fun hfit =>
    ⟨s.loadBytes 0 program, if_pos hfit, fun i hi => ?_, fun a ha => ?_, loadBytes_frame s 0 program⟩⟩
  · have hinside := loadBytes_readByte_inside s ((Nat.zero_add _).trans_le hfit) i hi
    rwa [Nat.zero_add] at hinside
  · exact loadBytes_readByte_outside s program (.inr (by omega))

end Sys2Proof.Machine
end
